-- ==== Sys2Proof/Word.lean ====
section
/-! DEFINITION. The words and byte arrays the spec names (00_scope.md R7, R9). -/

namespace Sys2Proof

/-- A byte. -/
abbrev Byte := BitVec 8

/-- A host register, a raw draw: 64 bits (00_scope.md R8). -/
abbrev Word := BitVec 64

/-- A command word, a block counter, an alphabet entry: 32 bits (00_scope.md R7, R8). -/
abbrev Word32 := BitVec 32

/-- A context index as a command names it: 8 bits (30_encoding.md R83, R84). -/
abbrev CtxIx := BitVec 8

/-- KEY[0..31] (10_state.md R21). -/
abbrev Key := Vector Byte 32

/-- NONCE[0..11], NONCE[0] most significant (10_state.md R22). -/
abbrev Nonce := Vector Byte 12

/-- One keystream block, BUF[0..63] (10_state.md R24). -/
abbrev Block := Vector Byte 64

/-- Seed material: a 32-byte key followed by a 12-byte nonce (00_scope.md R7). -/
abbrev Seed := Vector Byte 44

end Sys2Proof
end

