-- ==== Sys2Proof/Config.lean ====
section
/-! DEFINITION. What an implementation fixes, and what the spec leaves without a value. -/

namespace Sys2Proof

/-- `KEYSTREAM_BLOCK(key, nonce, ctr)`: a total deterministic function to 64 bytes, a parameter of the model
(60_exceptions.md R196, 92 D37). It has no body here: nothing can be proved about its values. Log entry 7. -/
opaque Config.keystreamBlock : Key → Nonce → Word32 → Block

/-- KEY of slot `i` after reset, for which the spec gives no value (10_state.md R38). DESIGN CHOICE, log entry 5. -/
opaque Config.resetKey : Nat → Key

/-- NONCE of slot `i` after reset, for which the spec gives no value (10_state.md R38). DESIGN CHOICE, log entry 5. -/
opaque Config.resetNonce : Nat → Nonce

/-- BUF of slot `i` after reset, for which the spec gives no value (10_state.md R38). DESIGN CHOICE, log entry 5. -/
opaque Config.resetBuf : Nat → Block

/-- NUM_CONTEXTS of the machine `State.reset` describes; the spec leaves it open in 1..256 (00_scope.md R8) and takes 4
in its own programs (95_test_vectors.md section 3). DESIGN CHOICE, log entry 6. -/
def Config.numContexts : Nat := 4

/-- ALPHA_CAPACITY of the machine `State.reset` describes; the spec leaves it open in 1..65536 (00_scope.md R8) and
takes 256 in its own programs (95_test_vectors.md section 3). DESIGN CHOICE, log entry 6. -/
def Config.alphaCapacity : Nat := 256

end Sys2Proof
end

