-- ==== Sys2Proof/Syntax.lean ====
section
/-! DEFINITION. The nine commands of the opcode table (30_encoding.md R81, R94). -/

namespace Sys2Proof

/-- The widths a sampler command may ask for: 8, 16, 32 or 64 bits (30_encoding.md R82). -/
inductive Width where
  | w8
  | w16
  | w32
  | w64
  deriving DecidableEq, Repr

/-- A decoded command: its operation with the contexts and the width it names. One constructor per row of
opcode_table.json. -/
inductive Instr where
  /-- NEXT_RAW64 c (40_engine.md R105) -/
  | nextRaw64 (c : CtxIx)
  /-- RESEED_AUTO c (40_engine.md R106) -/
  | reseedAuto (c : CtxIx)
  /-- RESEED_SEED c (40_engine.md R107) -/
  | reseedSeed (c : CtxIx)
  /-- CLONE d, s: d = CTX the destination, s = SRC the source (40_engine.md R108) -/
  | clone (d s : CtxIx)
  /-- JUMP c (40_engine.md R109) -/
  | jump (c : CtxIx)
  /-- BOUNDED_INT.w c (41_sampler.md R146) -/
  | boundedInt (w : Width) (c : CtxIx)
  /-- RANGED_INT.w c (41_sampler.md R150) -/
  | rangedInt (w : Width) (c : CtxIx)
  /-- UNIT_FLOAT c (41_sampler.md R156) -/
  | unitFloat (c : CtxIx)
  /-- RANDOM_CHAR c (41_sampler.md R160) -/
  | randomChar (c : CtxIx)
  deriving DecidableEq, Repr

/-- The context field CTX of a command, the slot it acts on; of CLONE the destination (30_encoding.md R83). -/
def Instr.ctx : Instr → CtxIx
  | .nextRaw64 c => c
  | .reseedAuto c => c
  | .reseedSeed c => c
  | .clone d _ => d
  | .jump c => c
  | .boundedInt _ c => c
  | .rangedInt _ c => c
  | .unitFloat c => c
  | .randomChar c => c

/-- The commands that draw from their context (60_exceptions.md R182, the row of PrimitiveFailure). -/
def Instr.draws : Instr → Bool
  | .nextRaw64 _ => true
  | .reseedAuto _ => false
  | .reseedSeed _ => false
  | .clone _ _ => false
  | .jump _ => false
  | .boundedInt _ _ => true
  | .rangedInt _ _ => true
  | .unitFloat _ => true
  | .randomChar _ => true

end Sys2Proof
end

