-- ==== Sys2Proof/WellFormed.lean ====
section
/-! DEFINITION. Which decoded commands name contexts the block has (30_encoding.md R83, R84, R88 items 5 and 6). -/

namespace Sys2Proof

/-- Every context the command names is less than `NUM_CONTEXTS` (`n`). -/
def Instr.wellFormed (n : Nat) : Instr → Bool
  | .nextRaw64 c => decide (c.toNat < n)
  | .reseedAuto c => decide (c.toNat < n)
  | .reseedSeed c => decide (c.toNat < n)
  | .clone d s => decide (d.toNat < n) && decide (s.toNat < n)
  | .jump c => decide (c.toNat < n)
  | .boundedInt _ c => decide (c.toNat < n)
  | .rangedInt _ c => decide (c.toNat < n)
  | .unitFloat c => decide (c.toNat < n)
  | .randomChar c => decide (c.toNat < n)

end Sys2Proof
end

