-- ==== Sys2Proof/Decode.lean ====
section
/-! DEFINITION. The decoder (30_encoding.md R80 to R88, R93), total on every 32-bit word, and the encoder (R94). -/

namespace Sys2Proof

/-- Why a word is illegal: the six items of 30_encoding.md R88, in its order. -/
inductive Illegal where
  /-- item 1: `OP` is 0x00 or in 0x0A .. 0xFF -/
  | opcode
  /-- item 2: `RSV != 0` -/
  | reserved
  /-- item 3: `W != 0` and the command takes no width -/
  | width
  /-- item 4: `SRC != 0` and the command is not CLONE -/
  | source
  /-- item 5: `CTX >= NUM_CONTEXTS` -/
  | context
  /-- item 6: CLONE with `SRC >= NUM_CONTEXTS` -/
  | sourceContext
  deriving DecidableEq, Repr

/-- What a word decodes to: one command with its fields, or Illegal (30_encoding.md R93). -/
inductive Decoded where
  | ok (i : Instr)
  | illegal (r : Illegal)
  deriving DecidableEq, Repr

/-- `OP`, bits [7:0] (30_encoding.md R80). -/
def opField (w : Word32) : BitVec 8 := w.extractLsb' 0 8

/-- `W`, bits [9:8]. -/
def widthField (w : Word32) : BitVec 2 := w.extractLsb' 8 2

/-- `RSV`, bits [15:10]. -/
def rsvField (w : Word32) : BitVec 6 := w.extractLsb' 10 6

/-- `CTX`, bits [23:16]. -/
def ctxField (w : Word32) : CtxIx := w.extractLsb' 16 8

/-- `SRC`, bits [31:24]. -/
def srcField (w : Word32) : CtxIx := w.extractLsb' 24 8

/-- The width of a width code (30_encoding.md R82). -/
def decodeWidth (c : BitVec 2) : Width :=
  if c = 0b00#2 then .w8 else if c = 0b01#2 then .w16 else if c = 0b10#2 then .w32 else .w64

/-- The width code of a width (30_encoding.md R82). -/
def encodeWidth : Width → BitVec 2
  | .w8 => 0b00#2
  | .w16 => 0b01#2
  | .w32 => 0b10#2
  | .w64 => 0b11#2

/-- The command an `OP` names (30_encoding.md R81) with the word's other fields; `none` for 0x00 and 0x0A .. 0xFF. -/
def decodeOp (op : BitVec 8) (wd : Width) (c s : CtxIx) : Option Instr :=
  if op = 0x01#8 then some (.nextRaw64 c)
  else if op = 0x02#8 then some (.reseedAuto c)
  else if op = 0x03#8 then some (.reseedSeed c)
  else if op = 0x04#8 then some (.clone c s)
  else if op = 0x05#8 then some (.jump c)
  else if op = 0x06#8 then some (.boundedInt wd c)
  else if op = 0x07#8 then some (.rangedInt wd c)
  else if op = 0x08#8 then some (.unitFloat c)
  else if op = 0x09#8 then some (.randomChar c)
  else none

/-- `decode(word)` of 30_encoding.md R93, for a block of `n` contexts; the conditions in its order. -/
def decode (n : Nat) (w : Word32) : Decoded :=
  match decodeOp (opField w) (decodeWidth (widthField w)) (ctxField w) (srcField w) with
  | none => .illegal .opcode
  | some i =>
    if rsvField w ≠ 0#6 then .illegal .reserved
    else if widthField w ≠ 0#2 ∧ opField w ≠ 0x06#8 ∧ opField w ≠ 0x07#8 then .illegal .width
    else if srcField w ≠ 0#8 ∧ opField w ≠ 0x04#8 then .illegal .source
    else if n ≤ (ctxField w).toNat then .illegal .context
    else if opField w = 0x04#8 ∧ n ≤ (srcField w).toNat then .illegal .sourceContext
    else .ok i

/-- A command word from its fields, SRC CTX RSV W OP from bit 31 down, RSV zero (30_encoding.md R80). -/
def commandWord (src ctx : CtxIx) (wd : BitVec 2) (op : BitVec 8) : Word32 := src ++ ctx ++ 0#6 ++ wd ++ op

/-- The word of a command (30_encoding.md R94). -/
def encode : Instr → Word32
  | .nextRaw64 c => commandWord 0#8 c 0#2 0x01#8
  | .reseedAuto c => commandWord 0#8 c 0#2 0x02#8
  | .reseedSeed c => commandWord 0#8 c 0#2 0x03#8
  | .clone d s => commandWord s d 0#2 0x04#8
  | .jump c => commandWord 0#8 c 0#2 0x05#8
  | .boundedInt w c => commandWord 0#8 c (encodeWidth w) 0x06#8
  | .rangedInt w c => commandWord 0#8 c (encodeWidth w) 0x07#8
  | .unitFloat c => commandWord 0#8 c 0#2 0x08#8
  | .randomChar c => commandWord 0#8 c 0#2 0x09#8

/-- The command word of an instruction whose `nbits` table bits are `w`, bits above them zero. -/
def tableWord (nbits w : Nat) : Word32 := BitVec.ofNat 32 (w % 2 ^ nbits)

/-- The decoder on a word of the opcode table, for the block `State.reset` describes. -/
def decodeTableWord (nbits w : Nat) : Option Instr :=
  match decode Config.numContexts (tableWord nbits w) with
  | .ok i => some i
  | .illegal _ => none

end Sys2Proof
end

