-- ==== Sys2Proof/Machine/State.lean ====
section
/-! DEFINITION. The state of the block and of its agents, the reasons a step could stop, and the state after reset
(10_state.md; 20_memory.md sections 2 and 3). -/

namespace Sys2Proof.Machine

/-- One context slot: the GeneratorState of the document with the two status bits of the spec (10_state.md R20). -/
structure Ctx where
  /-- KEY (R21) -/
  key : Key
  /-- NONCE (R22) -/
  nonce : Nonce
  /-- CTR, the counter value the next Refill passes to the KeystreamSource (R23) -/
  ctr : Word32
  /-- BUF, the lookahead buffer (R24) -/
  buf : Block
  /-- OFF, the cursor, in [0, 64] (R25) -/
  off : Fin 65
  /-- SEEDED (R29) -/
  seeded : Bool
  /-- FAILED, sticky (R30) -/
  failed : Bool
  deriving DecidableEq, Repr

/-- The engine sequencer's phase (10_state.md R34). -/
inductive Phase where
  | idle
  | exec
  | waitEntropy
  | waitKeystream
  deriving DecidableEq, Repr

/-- The errors a command can end with (60_exceptions.md R181, R182). -/
inductive Err where
  | invalidSeed
  | invalidRange
  | emptyAlphabet
  | primitiveFailure
  | illegalCommand
  | notSeeded
  | entropyFailure
  | instanceFailed
  deriving DecidableEq, Repr

/-- What the EntropySource answers: 44 bytes, or `fail` (60_exceptions.md R197). -/
inductive EntropyAnswer where
  | bytes (e : Seed)
  | fail
  deriving DecidableEq, Repr

/-- A host access of `size` bytes at byte offset `off` of the register window (20_memory.md R52, R54, R55). -/
inductive HostAccess where
  | read (size off : Nat)
  | write (size off : Nat) (v : Word)
  deriving DecidableEq, Repr

/-- What the host is answered: nothing yet, the value of a read, a write taken by the port, a bus error
(20_memory.md R54, R55; 60_exceptions.md R201). -/
inductive Reply where
  | none
  | data (v : Word)
  | done
  | busError
  deriving DecidableEq, Repr

/-- One step of one agent (00_scope.md R4). An answer names the request it answers by its number. -/
inductive Turn where
  /-- the Engine moves -/
  | engine
  /-- the Host makes one access -/
  | host (a : HostAccess)
  /-- the KeystreamSource answers request `req` with a status -/
  | keystream (req : Nat) (status : BitVec 8)
  /-- the EntropySource answers request `req` -/
  | entropy (req : Nat) (a : EntropyAnswer)
  /-- the platform asserts the reset input (70_reset_and_hazards.md R210) -/
  | reset
  deriving DecidableEq, Repr

/-- The block, with what the other agents are about to do. -/
structure State where
  /-- the context slots; their number is `NUM_CONTEXTS` (10_state.md R20) -/
  ctxs : List Ctx
  /-- CMD, the last command word accepted (20_memory.md R56) -/
  cmd : Word32
  /-- STATUS.OVR (20_memory.md R57) -/
  ovr : Bool
  /-- STATUS.ERR (20_memory.md R57) -/
  err : BitVec 8
  /-- RESULT (20_memory.md R58) -/
  result : Word
  /-- OPA (20_memory.md R59) -/
  opa : Word
  /-- OPB (20_memory.md R59) -/
  opb : Word
  /-- SEED_LEN (20_memory.md R60) -/
  seedLen : Word32
  /-- SEED0 .. SEED4 (20_memory.md R60) -/
  seed : Vector Word 5
  /-- SEED5, of which 32 bits are used (20_memory.md R60) -/
  seed5 : Word32
  /-- ALPHA_LEN (20_memory.md R61) -/
  alphaLen : Word32
  /-- ALPHA[0] ..; their number is `ALPHA_CAPACITY` (20_memory.md R61) -/
  alpha : List Word32
  /-- CTX_SEL (20_memory.md R62) -/
  ctxSel : BitVec 8
  /-- the sequencer's phase; STATUS.BUSY is 1 exactly when it is not `idle` (10_state.md R34) -/
  phase : Phase
  /-- the working copy of the context of the command in flight: what its draws have done so far, which the slot shows
  when the command completes (20_memory.md R67; 60_exceptions.md R183). Log entry 3. -/
  work : Option Ctx
  /-- the KeystreamSource's answer the engine has not used yet (10_state.md R34). Log entry 2. -/
  ksAnswer : Option (BitVec 8)
  /-- the EntropySource's answer the engine has not used yet (10_state.md R34). Log entry 2. -/
  entropyAnswer : Option EntropyAnswer
  /-- MODEL's own: how many requests the block has issued. Log entry 8. -/
  reqs : Nat
  /-- MODEL's own: the agents' coming turns, the next one first. Log entry 1. -/
  turns : List Turn
  /-- MODEL's own: what the last host access was answered. Log entry 10. -/
  reply : Reply
  deriving DecidableEq, Repr

/-- Why the machine would stop with a fault: there is no such reason. Every command ends by completion with a status
code (60_exceptions.md R180), and a host access that is not admitted is answered (R201). Nobody raises a fault, so
the type is empty. Log entry 12: safe. -/
inductive Fault : Type
  deriving DecidableEq, Repr

/-- Why the model would refuse an instruction. -/
inductive Refusal where
  /-- An instruction whose arm has no meaning yet. Raised by no arm of `exec`: every command of the table has its
  meaning. Safe. -/
  | notModelled (mnemonic : String)
  deriving DecidableEq, Repr

/-- Slot `i` after reset (10_state.md R38): unseeded, not failed, OFF 64, CTR 0; KEY, NONCE and BUF have no value in the
spec and are the uninterpreted constants of log entry 5. -/
def resetCtx (i : Nat) : Ctx where
  key := Config.resetKey i
  nonce := Config.resetNonce i
  ctr := 0#32
  buf := Config.resetBuf i
  off := 64
  seeded := false
  failed := false

/-- A block of `n` contexts and `m` alphabet entries right after reset (10_state.md R38); the model's own fields: log entry 22. -/
def resetState (n m : Nat) : State where
  ctxs := (List.range n).map resetCtx
  cmd := 0#32
  ovr := false
  err := 0#8
  result := 0#64
  opa := 0#64
  opb := 0#64
  seedLen := 0#32
  seed := #v[0#64, 0#64, 0#64, 0#64, 0#64]
  seed5 := 0#32
  alphaLen := 0#32
  alpha := List.replicate m 0#32
  ctxSel := 0#8
  phase := .idle
  work := none
  ksAnswer := none
  entropyAnswer := none
  reqs := 0
  turns := []
  reply := .none

/-- The machine right after reset (10_state.md R38), with the parameters of log entry 6. -/
def State.reset : State := resetState Config.numContexts Config.alphaCapacity

end Sys2Proof.Machine
end

