-- ==== Sys2Proof/Machine/Flags.lean ====
section
/-! DEFINITION. Status codes, status flags and the read-only views computed from them (60_exceptions.md R181;
20_memory.md R57, R62, R64; 10_state.md R28). -/

namespace Sys2Proof.Machine

/-- The status code of an error (60_exceptions.md R181). -/
def Err.code : Err → BitVec 8
  | .invalidSeed => 1#8
  | .invalidRange => 2#8
  | .emptyAlphabet => 3#8
  | .primitiveFailure => 4#8
  | .illegalCommand => 5#8
  | .notSeeded => 6#8
  | .entropyFailure => 7#8
  | .instanceFailed => 8#8

/-- STATUS.BUSY: `Idle` if and only if `BUSY = 0` (10_state.md R34). -/
def State.busy (s : State) : Bool := decide (s.phase ≠ .idle)

/-- EXH: `OFF > 56` (10_state.md R28). -/
def Ctx.exhausted (x : Ctx) : Bool := decide (56 < x.off.val)

/-- STATUS (20_memory.md R57). -/
def statusWord (s : State) : Word :=
  0#48 ++ s.err ++ 0#6 ++ BitVec.ofBool s.ovr ++ BitVec.ofBool s.busy

/-- CTX_INFO of one context (20_memory.md R62). -/
def ctxInfoOf (x : Ctx) : Word :=
  x.ctr ++ 0#17 ++ BitVec.ofNat 7 x.off.val ++ 0#5 ++ BitVec.ofBool x.exhausted ++ BitVec.ofBool x.failed
    ++ BitVec.ofBool x.seeded

/-- CTX_INFO: the context CTX_SEL names, or 0 when there is none (20_memory.md R62). -/
def ctxInfoWord (s : State) : Word :=
  match s.ctxs[s.ctxSel.toNat]? with
  | some x => ctxInfoOf x
  | none => 0#64

/-- PARAMS (20_memory.md R64). -/
def paramsWord (s : State) : Word :=
  0#16 ++ BitVec.ofNat 32 s.alpha.length ++ BitVec.ofNat 16 s.ctxs.length

end Sys2Proof.Machine
end

