-- ==== Sys2Proof/Machine/Operands.lean ====
section
/-! DEFINITION. Operand assembly: every operand form of the commands (30_encoding.md R82, R86, R87; 20_memory.md R60,
R61). -/

namespace Sys2Proof.Machine

/-- The number of bits of a width, `8 * 2^W` (30_encoding.md R82). -/
def bitsOf : Width → Nat
  | .w8 => 8
  | .w16 => 16
  | .w32 => 32
  | .w64 => 64

/-- Bits [w-1:0] of a 64-bit value, as a number (00_scope.md R9). -/
def lowBits (w : Width) (v : Word) : Nat := v.toNat % 2 ^ bitsOf w

/-- The operand fits the width: bits [63:w] are 0, and at width 64 every value fits (30_encoding.md R87). -/
def fits (w : Width) (v : Word) : Bool := decide (v.toNat < 2 ^ bitsOf w)

/-- Byte `k` of a register, bits [8*k+7 : 8*k] (20_memory.md R60). -/
def regByte {n : Nat} (v : BitVec n) (k : Nat) : Byte := v.extractLsb' (8 * k) 8

/-- SEED<k> as a 64-bit register (20_memory.md R60). -/
def seedReg (s : State) (k : Nat) : Word :=
  match s.seed[k]? with
  | some v => v
  | none => s.seed5.zeroExtend 64

/-- Seed byte `j`, `SEED<j div 8>[8*(j mod 8)+7 : 8*(j mod 8)]` (20_memory.md R60). -/
def seedByte (s : State) (j : Nat) : Byte := regByte (seedReg s (j / 8)) (j % 8)

/-- The seed a RESEED_SEED uses, `S[0..43]` (20_memory.md R60). -/
def seedOperand (s : State) : Seed := Vector.ofFn fun j => seedByte s j.val

/-- `S[0..32)`, the key of a seed (20_memory.md R65). -/
def keyOfSeed (e : Seed) : Key := Vector.ofFn fun i => e[i.val]

/-- `S[32..44)`, the nonce of a seed (20_memory.md R65). -/
def nonceOfSeed (e : Seed) : Nonce := Vector.ofFn fun i => e[32 + i.val]

/-- `ALPHA[i][31:0]`, zero-extended, of an alphabet entry the block holds (20_memory.md R61). -/
def alphaEntry (s : State) (i : Nat) : Word :=
  match s.alpha[i]? with
  | some v => v.zeroExtend 64
  | none => 0#64

end Sys2Proof.Machine
end

