-- ==== Sys2Proof/Machine/Ops.lean ====
section
/-! DEFINITION. The named operations every command shares: writing a slot, ending a command and raising an error, the
byte orders, and the sub-procedures NonceInc, CheckDrawable, Refill, NextRaw64, Draw, Bounded and F64 (20_memory.md R63,
R65; 40_engine.md section 1; 41_sampler.md section 1 and R155; 60_exceptions.md R183). -/

namespace Sys2Proof.Machine

/-! ## Slots -/

/-- `ctx[c] <- x` (00_scope.md R11). -/
def State.setCtx (s : State) (c : CtxIx) (x : Ctx) : State := { s with ctxs := s.ctxs.set c.toNat x }

/-! ## Issue, completion, errors -/

/-- `issue(w)`: latch the word and start a command (20_memory.md R63). The sequencer starts with nothing in flight: log
entry 21. -/
def issue (w : Word32) (s : State) : State :=
  { s with cmd := w, phase := .exec, work := none, ksAnswer := none, entropyAnswer := none }

/-- The end of a command, in one step: ERR gets the code; RESULT gets the value if the code is 0 and there is one;
BUSY falls (20_memory.md R63). -/
def complete (code : BitVec 8) (v : Option Word) (s : State) : State :=
  { s with
    err := code
    result := if code = 0#8 then v.getD s.result else s.result
    phase := .idle
    work := none
    ksAnswer := none
    entropyAnswer := none }

/-- `raise E`: the command ends with the error's code and writes no RESULT (60_exceptions.md R183). This is the block's
only kind of exception entry: no vector, no saved state (R180, R192). -/
def raise (e : Err) (s : State) : State := complete e.code none s

/-- Run a command on the slot it names. A command that names no slot of the block is illegal (30_encoding.md R88 items
5 and 6); `step` never gets here with one, its decoder has refused the word. Log entry 13. -/
def onContext (c : CtxIx) (s : State) (k : Ctx → State) : State :=
  match s.ctxs[c.toNat]? with
  | none => raise .illegalCommand s
  | some x => k x

/-- `CheckDrawable(c)`: the error a command that draws from or jumps the context would raise (40_engine.md R101). -/
def drawableError (x : Ctx) : Option Err :=
  if x.failed then some .instanceFailed else if x.seeded then none else some .notSeeded

/-- Run a command on a slot that passes `CheckDrawable` (40_engine.md R101). -/
def onDrawable (c : CtxIx) (s : State) (k : Ctx → State) : State :=
  onContext c s fun x =>
    match drawableError x with
    | some e => raise e s
    | none => k x

/-! ## Byte orders -/

/-- `BE96(n)`: `n[0]` most significant (00_scope.md R10). -/
def be96 (n : Nonce) : BitVec 96 :=
  n[0] ++ n[1] ++ n[2] ++ n[3] ++ n[4] ++ n[5] ++ n[6] ++ n[7] ++ n[8] ++ n[9] ++ n[10] ++ n[11]

/-- `BE96inv(N)`: byte `i` is bits [8*(11-i)+7 : 8*(11-i)] (00_scope.md R10). -/
def be96inv (v : BitVec 96) : Nonce := Vector.ofFn fun i => regByte v (11 - i.val)

/-- `NonceInc(n)` (40_engine.md R100). -/
def nonceInc (n : Nonce) : Nonce := be96inv (be96 n + 1#96)

/-- BUF[i]; no rule reads the buffer outside 0..63 (20_memory.md R50). Log entry 14. -/
def bufByte (b : Block) (i : Nat) : Byte := b[i]?.getD 0#8

/-- `LE64(BUF[o], ..., BUF[o+7])`: BUF[o] is bits [7:0] (20_memory.md R65). -/
def le64At (b : Block) (o : Nat) : Word :=
  bufByte b (o + 7) ++ bufByte b (o + 6) ++ bufByte b (o + 5) ++ bufByte b (o + 4) ++ bufByte b (o + 3)
    ++ bufByte b (o + 2) ++ bufByte b (o + 1) ++ bufByte b o

/-! ## Writing a context -/

/-- The effect of a successful reseed on its context; BUF stays (40_engine.md R106, R107). -/
def seedCtx (x : Ctx) (e : Seed) : Ctx :=
  { x with key := keyOfSeed e, nonce := nonceOfSeed e, ctr := 0#32, off := 64, seeded := true }

/-- The effect of JUMP on its context; KEY and BUF stay (40_engine.md R109). -/
def jumpCtx (x : Ctx) : Ctx := { x with nonce := nonceInc x.nonce, ctr := 0#32, off := 64 }

/-- The effect of a successful Refill on its context (40_engine.md R102): the block of the triple before the increment,
the counter's increment, and the nonce's when the counter wraps to 0. -/
def refillCtx (x : Ctx) : Ctx :=
  { x with
    buf := Config.keystreamBlock x.key x.nonce x.ctr
    ctr := x.ctr + 1#32
    nonce := if x.ctr + 1#32 = 0#32 then nonceInc x.nonce else x.nonce
    off := 0 }

/-- `OFF <- o + 8` (40_engine.md R104). -/
def advance (x : Ctx) : Ctx := { x with off := Fin.ofNat 65 (x.off.val + 8) }

/-! ## Draws -/

/-- How far a sub-procedure that draws got, with the context as its draws have left it. -/
inductive Draw (α : Type) where
  /-- it returned a value; the answer latch holds what was not used -/
  | done (a : α) (x : Ctx) (ks : Option (BitVec 8))
  /-- it needs a block and the KeystreamSource has not answered: the request is issued (60_exceptions.md R196) -/
  | waitKs (x : Ctx)
  /-- a Refill raised PrimitiveFailure: FAILED is set (40_engine.md R102) -/
  | primFail (x : Ctx)
  /-- its rejection loop has not met an accepted draw yet (70_reset_and_hazards.md R232) -/
  | more (x : Ctx) (ks : Option (BitVec 8))
  deriving DecidableEq, Repr

/-- Apply a function to the value a draw returns. -/
def mapDraw {α β : Type} (f : α → β) : Draw α → Draw β
  | .done a x ks => .done (f a) x ks
  | .waitKs x => .waitKs x
  | .primFail x => .primFail x
  | .more x ks => .more x ks

/-- The last three lines of `NextRaw64(c)`: the draw at the cursor (40_engine.md R104). -/
def takeDraw (x : Ctx) (ks : Option (BitVec 8)) : Draw Word := .done (le64At x.buf x.off.val) (advance x) ks

/-- `Refill(c)` and then the draw, given the KeystreamSource's answer (40_engine.md R102, R104). -/
def refillAndDraw (x : Ctx) : Option (BitVec 8) → Draw Word
  | none => .waitKs x
  | some st => if st = 0#8 then takeDraw (refillCtx x) none else .primFail { x with failed := true }

/-- `NextRaw64(c)` (40_engine.md R104): refill when `OFF > 56`, then the draw at the cursor. -/
def nextRaw64 (x : Ctx) (ks : Option (BitVec 8)) : Draw Word :=
  if 56 < x.off.val then refillAndDraw x ks else takeDraw x ks

/-- `Draw(c, w)`: one raw draw cut to its low w bits (41_sampler.md R140). -/
def drawBits (w : Width) (x : Ctx) (ks : Option (BitVec 8)) : Draw Nat := mapDraw (lowBits w) (nextRaw64 x ks)

/-- A power of two, 1 among them (00_scope.md R9). -/
def isPow2 (n : Nat) : Bool := decide (2 ^ n.log2 = n)

/-- The rejection limit `2^w - 2^w mod n` (41_sampler.md R141, R144). -/
def rejectLimit (w : Width) (n : Nat) : Nat := 2 ^ bitsOf w - 2 ^ bitsOf w % n

/-- The rejection loop (41_sampler.md R141, R145), under fuel (70_reset_and_hazards.md R232). -/
def rejectLoop (w : Width) (n : Nat) : Nat → Ctx → Option (BitVec 8) → Draw Nat
  | 0, x, ks => .more x ks
  | f + 1, x, ks =>
    match drawBits w x ks with
    | .done v x' ks' => if v < rejectLimit w n then .done (v % n) x' ks' else rejectLoop w n f x' ks'
    | .waitKs x' => .waitKs x'
    | .primFail x' => .primFail x'
    | .more x' ks' => .more x' ks'

/-- The fuel of one run of the loop: eight draws of the present buffer and eight of the one block an answer can bring;
the seventeenth finds no answer and waits. A loop that ran out would go on at the engine's next turn. Log entry 4. -/
def loopFuel : Nat := 17

/-- `Bounded(c, m, w)` (41_sampler.md R141): the whole range, a mask, or the rejection loop. -/
def bounded (w : Width) (m : Nat) (x : Ctx) (ks : Option (BitVec 8)) : Draw Nat :=
  if m = 2 ^ bitsOf w - 1 then drawBits w x ks
  else if isPow2 (m + 1) then mapDraw (fun v => v &&& m) (drawBits w x ks)
  else rejectLoop w (m + 1) loopFuel x ks

/-- `F64(k)`, the binary64 encoding of `k * 2^-53` (41_sampler.md R155). Log entry 15. -/
def f64 (k : Nat) : Word :=
  if k = 0 then 0#64
  else BitVec.ofNat 64 (((970 + k.log2) <<< 52) ||| ((k - 2 ^ k.log2) <<< (52 - k.log2)))

/-- The context a command in flight goes on with: its working copy, or the slot at its start. Log entry 3. -/
def State.working (s : State) (x : Ctx) : Ctx := s.work.getD x

/-- What a command that draws from context `c` does next, once its draws have got as far as `d`: complete with the value
(20_memory.md R63), hold for the KeystreamSource (60_exceptions.md R196), end with PrimitiveFailure (R186), or go on with
its loop at the engine's next turn (70_reset_and_hazards.md R232). -/
def finishDraw (c : CtxIx) (d : Draw Word) (s : State) : State :=
  match d with
  | .done v x _ => complete 0#8 (some v) (s.setCtx c x)
  | .waitKs x => { s with work := some x, ksAnswer := none, phase := .waitKeystream, reqs := s.reqs + 1 }
  | .primFail x => raise .primitiveFailure (s.setCtx c x)
  | .more x ks => { s with work := some x, ksAnswer := ks, phase := .exec }

end Sys2Proof.Machine
end

