-- ==== Sys2Proof/Machine/Engine.lean ====
section
/-! DEFINITION. The five engine commands (40_engine.md section 2). -/

namespace Sys2Proof.Machine

/-- NEXT_RAW64 (40_engine.md R105). -/
def execNextRaw64 (c : CtxIx) (s : State) : Host.Outcome State Fault Refusal :=
  .next (onDrawable c s fun x => finishDraw c (nextRaw64 (s.working x) s.ksAnswer) s)

/-- RESEED_AUTO (40_engine.md R106): without an answer it issues the request and holds in WaitEntropy; with one it ends. -/
def execReseedAuto (c : CtxIx) (s : State) : Host.Outcome State Fault Refusal :=
  .next (onContext c s fun x =>
    if x.failed then raise .instanceFailed s
    else match s.entropyAnswer with
      | none => { s with phase := .waitEntropy, reqs := s.reqs + 1 }
      | some .fail => raise .entropyFailure (s.setCtx c { x with failed := true })
      | some (.bytes e) => complete 0#8 none (s.setCtx c (seedCtx x e)))

/-- RESEED_SEED (40_engine.md R107). -/
def execReseedSeed (c : CtxIx) (s : State) : Host.Outcome State Fault Refusal :=
  .next (onContext c s fun x =>
    if x.failed then raise .instanceFailed s
    else if s.seedLen.toNat < 44 then raise .invalidSeed s
    else complete 0#8 none (s.setCtx c (seedCtx x (seedOperand s))))

/-- CLONE (40_engine.md R108). -/
def execClone (d src : CtxIx) (s : State) : Host.Outcome State Fault Refusal :=
  .next (onContext d s fun xd => onContext src s fun xs =>
    if xd.failed || xs.failed then raise .instanceFailed s
    else if !xs.seeded then raise .notSeeded s
    else if d = src then complete 0#8 none s
    else complete 0#8 none (s.setCtx d { xs with seeded := true, failed := xd.failed }))

/-- JUMP (40_engine.md R109). -/
def execJump (c : CtxIx) (s : State) : Host.Outcome State Fault Refusal :=
  .next (onDrawable c s fun x => complete 0#8 none (s.setCtx c (jumpCtx x)))

end Sys2Proof.Machine
end

