-- ==== Sys2Proof/Machine/Sampler.lean ====
section
/-! DEFINITION. The four sampler commands (41_sampler.md section 2). -/

namespace Sys2Proof.Machine

/-- BOUNDED_INT (41_sampler.md R146): operand fit, then the context, then the draws. -/
def execBoundedInt (w : Width) (c : CtxIx) (s : State) : Host.Outcome State Fault Refusal :=
  .next (if fits w s.opa then
    onDrawable c s fun x =>
      finishDraw c (mapDraw (BitVec.ofNat 64) (bounded w (lowBits w s.opa) (s.working x) s.ksAnswer)) s
  else raise .illegalCommand s)

/-- `zext_64((v + lo) mod 2^w)` (41_sampler.md R150). -/
def rangedResult (w : Width) (lo v : Nat) : Word := BitVec.ofNat 64 ((v + lo) % 2 ^ bitsOf w)

/-- RANGED_INT (41_sampler.md R150): operand fit, the context, the range (unsigned, R151), then the draws. -/
def execRangedInt (w : Width) (c : CtxIx) (s : State) : Host.Outcome State Fault Refusal :=
  .next (if fits w s.opa && fits w s.opb then
    onDrawable c s fun x =>
      if lowBits w s.opb < lowBits w s.opa then raise .invalidRange s
      else finishDraw c (mapDraw (rangedResult w (lowBits w s.opa))
        (bounded w (lowBits w s.opb - lowBits w s.opa) (s.working x) s.ksAnswer)) s
  else raise .illegalCommand s)

/-- The result of UNIT_FLOAT from a raw draw `r`: `F64(r[63:11])` (41_sampler.md R156). -/
def unitFloatOf (r : Word) : Word := f64 (r.toNat / 2 ^ 11)

/-- UNIT_FLOAT (41_sampler.md R156). -/
def execUnitFloat (c : CtxIx) (s : State) : Host.Outcome State Fault Refusal :=
  .next (onDrawable c s fun x => finishDraw c (mapDraw unitFloatOf (nextRaw64 (s.working x) s.ksAnswer)) s)

/-- RANDOM_CHAR (41_sampler.md R160): the capacity, the context, the empty alphabet, then an index of width 32. -/
def execRandomChar (c : CtxIx) (s : State) : Host.Outcome State Fault Refusal :=
  .next (if s.alpha.length < s.alphaLen.toNat then raise .illegalCommand s
  else onDrawable c s fun x =>
    if s.alphaLen.toNat = 0 then raise .emptyAlphabet s
    else finishDraw c (mapDraw (alphaEntry s) (bounded .w32 (s.alphaLen.toNat - 1) (s.working x) s.ksAnswer)) s)

end Sys2Proof.Machine
end

