-- ==== Sys2Proof/Machine/Dispatch.lean ====
section
/-! DEFINITION. One arm per command: each calls its meaning. -/

namespace Sys2Proof.Machine

def exec (i : Instr) (s : State) : Host.Outcome State Fault Refusal :=
  match i with
  | .nextRaw64 c => Sys2Proof.Machine.execNextRaw64 c s
  | .reseedAuto c => Sys2Proof.Machine.execReseedAuto c s
  | .reseedSeed c => Sys2Proof.Machine.execReseedSeed c s
  | .clone d src => Sys2Proof.Machine.execClone d src s
  | .jump c => Sys2Proof.Machine.execJump c s
  | .boundedInt w c => Sys2Proof.Machine.execBoundedInt w c s
  | .rangedInt w c => Sys2Proof.Machine.execRangedInt w c s
  | .unitFloat c => Sys2Proof.Machine.execUnitFloat c s
  | .randomChar c => Sys2Proof.Machine.execRandomChar c s

end Sys2Proof.Machine
end

