-- ==== Sys2Proof/Machine/HostPort.lean ====
section
/-! DEFINITION. The host register window: its map, HostRead and HostWrite (20_memory.md sections 1 to 3). -/

namespace Sys2Proof.Machine

/-- A register of the window (20_memory.md R51). -/
inductive Reg where
  | cmd
  | status
  | result
  | opa
  | opb
  | seedLen
  | alphaLen
  | ctxSel
  | ctxInfo
  | params
  | seed (k : Fin 6)
  | alpha (i : Nat)
  deriving DecidableEq, Repr

/-- The byte offset of a register (20_memory.md R51). -/
def regOffset : Reg → Nat
  | .cmd => 0x00000
  | .status => 0x00008
  | .result => 0x00010
  | .opa => 0x00018
  | .opb => 0x00020
  | .seedLen => 0x00028
  | .alphaLen => 0x00030
  | .ctxSel => 0x00038
  | .ctxInfo => 0x00040
  | .params => 0x00048
  | .seed k => 0x00100 + 8 * k.val
  | .alpha i => 0x01000 + 8 * i

/-- The registers below 0x00050, by their place in the map (20_memory.md R51). -/
def controlReg : Nat → Option Reg
  | 0 => some .cmd
  | 1 => some .status
  | 2 => some .result
  | 3 => some .opa
  | 4 => some .opb
  | 5 => some .seedLen
  | 6 => some .alphaLen
  | 7 => some .ctxSel
  | 8 => some .ctxInfo
  | 9 => some .params
  | _ => none

/-- The register at an offset, a multiple of 8, of a window whose alphabet has `cap` entries; `none` at a reserved offset
(20_memory.md R51, R53). -/
def regAt (cap off : Nat) : Option Reg :=
  if off < 0x00050 then controlReg (off / 8)
  else if 0x00100 ≤ off ∧ off < 0x00130 then some (.seed (Fin.ofNat 6 ((off - 0x00100) / 8)))
  else if 0x01000 ≤ off ∧ off < 0x01000 + 8 * cap then some (.alpha ((off - 0x01000) / 8))
  else none

/-- The accesses the window admits: 8 bytes at a multiple of 8 below 0x100000 (20_memory.md R52). -/
def admitted (size off : Nat) : Bool := decide (size = 8 ∧ off % 8 = 0 ∧ off < 0x100000)

/-- The value a register reads as, its undefined bits 0 (20_memory.md R53, R55 to R64). -/
def readReg (s : State) : Reg → Word
  | .cmd => s.cmd.zeroExtend 64
  | .status => statusWord s
  | .result => s.result
  | .opa => s.opa
  | .opb => s.opb
  | .seedLen => s.seedLen.zeroExtend 64
  | .alphaLen => s.alphaLen.zeroExtend 64
  | .ctxSel => s.ctxSel.zeroExtend 64
  | .ctxInfo => ctxInfoWord s
  | .params => paramsWord s
  | .seed k => seedReg s k.val
  | .alpha i => alphaEntry s i

/-- `HostRead(off)` of an admitted access: a reserved offset reads 0 (20_memory.md R53, R55). -/
def hostRead (s : State) (off : Nat) : Word :=
  match regAt s.alpha.length off with
  | some r => readReg s r
  | none => 0#64

/-- Bit 1 of the value written to STATUS: it clears OVR (20_memory.md R54, R57). -/
def clearsOvr (v : Word) : Bool := v.getLsbD 1

/-- SEED<k> <- v, of SEED5 its low 32 bits (20_memory.md R54). -/
def writeSeed (s : State) (k : Fin 6) (v : Word) : State :=
  if k.val = 5 then { s with seed5 := v.extractLsb' 0 32 }
  else { s with seed := s.seed.setIfInBounds k.val v }

/-- A write that reaches a register, BUSY being 0 (20_memory.md R54). -/
def writeReg (s : State) (v : Word) : Reg → State
  | .cmd => issue (v.extractLsb' 0 32) s
  | .status => if clearsOvr v then { s with ovr := false } else s
  | .result => s
  | .opa => { s with opa := v }
  | .opb => { s with opb := v }
  | .seedLen => { s with seedLen := v.extractLsb' 0 32 }
  | .alphaLen => { s with alphaLen := v.extractLsb' 0 32 }
  | .ctxSel => { s with ctxSel := v.extractLsb' 0 8 }
  | .ctxInfo => s
  | .params => s
  | .seed k => writeSeed s k v
  | .alpha i => { s with alpha := s.alpha.set i (v.extractLsb' 0 32) }

/-- `HostWrite(off, v)` of an admitted access: while BUSY it is dropped and sets OVR, but for the write that clears OVR
(20_memory.md R54). -/
def hostWrite (s : State) (off : Nat) (v : Word) : State :=
  if s.busy then
    if off = 0x00008 ∧ clearsOvr v = true then { s with ovr := false } else { s with ovr := true }
  else
    match regAt s.alpha.length off with
    | some r => writeReg s v r
    | none => s

/-- One host access: a bus error and no change when it is not admitted (20_memory.md R52; 60_exceptions.md R201). -/
def hostAccess : HostAccess → State → State
  | .read size off, s => { s with reply := if admitted size off then .data (hostRead s off) else .busError }
  | .write size off v, s =>
    if admitted size off then { hostWrite s off v with reply := .done } else { s with reply := .busError }

end Sys2Proof.Machine
end

