-- ==== Sys2Proof/Machine/Sequencer.lean ====
section
/-! DEFINITION. What each agent does at its turn: the Engine, the Host, the two sources, the reset input (00_scope.md R4;
20_memory.md R63; 60_exceptions.md R196, R197; 70_reset_and_hazards.md R210, R211). -/

namespace Sys2Proof.Machine

/-- The Engine decodes the latched word and runs it; an illegal word ends with IllegalCommand (20_memory.md R63;
30_encoding.md R93; 60_exceptions.md R190). A command that waited runs again from its start, on its working copy. Log
entry 19. -/
def runCommand (s : State) : Host.Outcome State Fault Refusal :=
  match decode s.ctxs.length s.cmd with
  | .ok i => exec i s
  | .illegal _ => .next (raise .illegalCommand s)

/-- The Engine's turn: it runs in phase Exec; in Idle it has nothing to do, and in WaitEntropy and WaitKeystream it holds
until the answer comes (10_state.md R34; 60_exceptions.md R196, R197). -/
def engineTurn (s : State) : Host.Outcome State Fault Refusal :=
  if s.phase = .exec then runCommand s else .next s

/-- The KeystreamSource's answer: it reaches the engine if it answers the outstanding request, and is discarded otherwise
(60_exceptions.md R196; 70_reset_and_hazards.md R211). -/
def keystreamTurn (req : Nat) (status : BitVec 8) (s : State) : State :=
  if s.phase = .waitKeystream ∧ req = s.reqs then { s with ksAnswer := some status, phase := .exec } else s

/-- The EntropySource's answer: it reaches the engine if it answers the outstanding request, and is discarded otherwise
(60_exceptions.md R197; 70_reset_and_hazards.md R211). -/
def entropyTurn (req : Nat) (a : EntropyAnswer) (s : State) : State :=
  if s.phase = .waitEntropy ∧ req = s.reqs then { s with entropyAnswer := some a, phase := .exec } else s

/-- The reset input: every piece of the block's state gets its reset value (70_reset_and_hazards.md R210, R211). The
parameters, the agents' coming turns and the number of requests issued are not the block's state and stay. Log entry
16. -/
def hardReset (s : State) : State :=
  { resetState s.ctxs.length s.alpha.length with reqs := s.reqs, turns := s.turns }

/-- One agent's turn. -/
def agentTurn : Turn → State → Host.Outcome State Fault Refusal
  | .engine, s => engineTurn s
  | .host a, s => .next (hostAccess a s)
  | .keystream req st, s => .next (keystreamTurn req st s)
  | .entropy req a, s => .next (entropyTurn req a s)
  | .reset, s => .next (hardReset s)

/-- The next turn is the first of `turns`; when there is none, the Engine moves. Log entry 1. -/
def nextTurn (s : State) : Host.Outcome State Fault Refusal :=
  match s.turns with
  | [] => engineTurn s
  | t :: ts => agentTurn t { s with turns := ts }

/-- The state after an accepted write of the command word to CMD, with the Engine's turn next. -/
def placeCommand (s : State) (w : Word32) : State := { issue w s with turns := .engine :: s.turns }

end Sys2Proof.Machine
end

