-- ==== Sys2Proof/Machine/Step.lean ====
section
/-! DEFINITION. One step of the machine, and how a command is placed where the next step runs it. -/

namespace Sys2Proof.Machine

/-- One step: one agent's turn. -/
def step (s : State) : Host.Outcome State Fault Refusal := nextTurn s

/-- `s` with the command word issued, so that the next step is the Engine running it. The block fetches nothing
(00_scope.md R12): this stands for the host's accepted write to CMD. Log entry 11. -/
def State.withFetchWord (s : State) (nbits w : Nat) : State := placeCommand s (tableWord nbits w)

end Sys2Proof.Machine
end

