-- ==== Sys2Proof/Safety.lean ====
section
/-! DEFINITION. What counts as a safe state, and the observations claims are stated in (10_state.md R25 to R32;
40_engine.md R110 to R114; 20_memory.md R62). -/

namespace Sys2Proof.Machine

/-- The triple a Refill that left NONCE and CTR as they are passed to the KeystreamSource: nonce and counter
(10_state.md R26, both cases). -/
def prevTriple (x : Ctx) : Nonce × Word32 :=
  if x.ctr = 0#32 then (be96inv (be96 x.nonce - 1#96), 0xFFFFFFFF#32) else (x.nonce, x.ctr - 1#32)

/-- The buffer's unread bytes are those of the most recent Refill's block (10_state.md R26). -/
def Ctx.Provenance (x : Ctx) : Prop :=
  x.off.val < 64 → x.buf = Config.keystreamBlock x.key (prevTriple x).1 (prevTriple x).2

/-- OFF is one of 0, 8, .., 64 (10_state.md R25). -/
def Ctx.Aligned (x : Ctx) : Prop := x.off.val % 8 = 0

/-- A slot that has held no key material since reset is at its reset position (10_state.md R29, R38). -/
def Ctx.FreshUntilSeeded (x : Ctx) : Prop := x.seeded = false → x.off.val = 64 ∧ x.ctr = 0#32

/-- A property holds of every context the state holds: the slots, and the working copy of the command in flight. -/
def State.EveryCtx (s : State) (P : Ctx → Prop) : Prop := (∀ x ∈ s.ctxs, P x) ∧ (∀ x, s.work = some x → P x)

/-- The working copy of a command in flight is of a seeded context that has not failed: only commands that have passed
CheckDrawable draw (40_engine.md R101, R104). -/
def State.WorkUsable (s : State) : Prop := ∀ x, s.work = some x → x.seeded = true ∧ x.failed = false

/-- Of a command `i` in flight: its working copy has the KEY, SEEDED and FAILED of the slot it names, for none of its draws
writes them and the slot stays until it completes (10_state.md R21, R29, R30; 20_memory.md R67). -/
def State.WorkOfSlot (s : State) (i : Instr) : Prop :=
  ∀ x z, s.ctxs[i.ctx.toNat]? = some x → s.work = some z → z.key = x.key ∧ z.seeded = x.seeded ∧ z.failed = x.failed

/-- The working copy has the KEY, SEEDED and FAILED of the slot the latched word names. -/
def State.WorkAgrees (s : State) : Prop := ∀ i, decode s.ctxs.length s.cmd = .ok i → s.WorkOfSlot i

/-- `STATUS.ERR` holds a code of the table; 9 .. 255 are never produced (60_exceptions.md R181). -/
def State.ErrInTable (s : State) : Prop := s.err.toNat ≤ 8

/-- `NUM_CONTEXTS` and `ALPHA_CAPACITY` are in their ranges (00_scope.md R8). -/
def State.ParamsInRange (s : State) : Prop :=
  1 ≤ s.ctxs.length ∧ s.ctxs.length ≤ 256 ∧ 1 ≤ s.alpha.length ∧ s.alpha.length ≤ 65536

/-- The latched word is a command that draws. -/
def State.RunsDraw (s : State) : Prop := ∃ i, decode s.ctxs.length s.cmd = .ok i ∧ i.draws = true

/-- The latched word is RESEED_AUTO. -/
def State.RunsReseedAuto (s : State) : Prop := ∃ c, decode s.ctxs.length s.cmd = .ok (.reseedAuto c)

/-- The sequencer's state fits its phase (10_state.md R34; 20_memory.md R74): nothing is in flight in Idle, a working copy
or a keystream answer belongs to a command that draws, an entropy answer to RESEED_AUTO, and a wait has no answer yet. -/
def State.Coherent (s : State) : Prop :=
  (s.phase = .idle → s.work = none ∧ s.ksAnswer = none ∧ s.entropyAnswer = none) ∧
  (s.phase = .waitEntropy → s.RunsReseedAuto ∧ s.entropyAnswer = none) ∧
  (s.phase = .waitKeystream → s.RunsDraw ∧ s.work.isSome = true ∧ s.ksAnswer = none) ∧
  (s.work.isSome = true ∨ s.ksAnswer.isSome = true → s.RunsDraw) ∧
  (s.entropyAnswer.isSome = true → s.RunsReseedAuto)

/-- The 128-bit position `T = BE96(NONCE) * 2^32 + CTR` (40_engine.md R114). -/
def position (x : Ctx) : Nat := (be96 x.nonce).toNat * 2 ^ 32 + x.ctr.toNat

/-- `k` raw draws in a row, every KeystreamSource answer a success: the values, the context after them, and the number of
Refills (40_engine.md R111, R113). -/
def drawMany : Nat → Ctx → List Word × Ctx × Nat
  | 0, x => ([], x, 0)
  | k + 1, x =>
    match nextRaw64 x (some 0#8) with
    | .done r x' ks =>
      let rest := drawMany k x'
      (r :: rest.1, rest.2.1, rest.2.2 + if ks = none then 1 else 0)
    | .waitKs x' => ([], x', 0)
    | .primFail x' => ([], x', 0)
    | .more x' _ => ([], x', 0)

/-- The `j`-th raw draw (from 0) a context makes when it draws again and again with one answer latched: its value and the
context after it, or where the draws stopped before it (40_engine.md R104). -/
def nthDraw : Nat → Ctx → Option (BitVec 8) → Draw Word
  | 0, x, ks => nextRaw64 x ks
  | j + 1, x, ks =>
    match nextRaw64 x ks with
    | .done _ x' ks' => nthDraw j x' ks'
    | .waitKs x' => .waitKs x'
    | .primFail x' => .primFail x'
    | .more x' ks' => .more x' ks'

/-- The context the next raw draw reads: the context itself while it is Ready, and after a successful Refill when it is
Exhausted; none while the KeystreamSource has not answered with status 0 (40_engine.md R104). -/
def readyCtx (x : Ctx) (ks : Option (BitVec 8)) : Option Ctx :=
  if x.off.val ≤ 56 then some x else if ks = some 0#8 then some (refillCtx x) else none

/-- What the policy of 41_sampler.md R141 makes of one w-bit draw `v` for the bound `m`: the value it returns, or none
when it discards the draw. Written from the policy's words; the model's `bounded` is the loop. -/
def acceptDraw (w : Width) (m v : Nat) : Option Nat :=
  if m = 2 ^ bitsOf w - 1 then some v
  else if ∃ k, k < bitsOf w ∧ m + 1 = 2 ^ k then some (v &&& m)
  else if v < (2 ^ bitsOf w / (m + 1)) * (m + 1) then some (v % (m + 1))
  else none

/-- The RESULT a command that draws gives from one raw draw `r`, or none when it discards the draw (40_engine.md R105;
41_sampler.md R146, R150, R156, R160). -/
def outcomeOf (s : State) (r : Word) : Instr → Option Word
  | .nextRaw64 _ => some r
  | .unitFloat _ => some (unitFloatOf r)
  | .boundedInt w _ => (acceptDraw w s.opa.toNat (lowBits w r)).map (BitVec.ofNat 64)
  | .rangedInt w _ =>
    (acceptDraw w (s.opb.toNat - s.opa.toNat) (lowBits w r)).map fun v => BitVec.ofNat 64 (v + s.opa.toNat)
  | .randomChar _ => (acceptDraw .w32 (s.alphaLen.toNat - 1) (lowBits .w32 r)).map (alphaEntry s)
  | .reseedAuto _ => none
  | .reseedSeed _ => none
  | .clone _ _ => none
  | .jump _ => none

/-- The command's operands fit (30_encoding.md R87). -/
def operandsFit (s : State) : Instr → Prop
  | .nextRaw64 _ => True
  | .reseedAuto _ => True
  | .reseedSeed _ => True
  | .clone _ _ => True
  | .jump _ => True
  | .boundedInt w _ => s.opa.toNat < 2 ^ bitsOf w
  | .rangedInt w _ => s.opa.toNat < 2 ^ bitsOf w ∧ s.opb.toNat < 2 ^ bitsOf w
  | .unitFloat _ => True
  | .randomChar _ => s.alphaLen.toNat ≤ s.alpha.length

/-- The command's operands fit and are valid: no error of class 1 or 4 comes from them (60_exceptions.md R184). -/
def operandsValid (s : State) : Instr → Prop
  | .nextRaw64 _ => True
  | .reseedAuto _ => True
  | .reseedSeed _ => 44 ≤ s.seedLen.toNat
  | .clone _ _ => True
  | .jump _ => True
  | .boundedInt w _ => s.opa.toNat < 2 ^ bitsOf w
  | .rangedInt w _ => s.opa.toNat ≤ s.opb.toNat ∧ s.opb.toNat < 2 ^ bitsOf w
  | .unitFloat _ => True
  | .randomChar _ => 0 < s.alphaLen.toNat ∧ s.alphaLen.toNat ≤ s.alpha.length

/-- The slots a command names: CTX, and for CLONE also SRC (60_exceptions.md R188). -/
def slotsNamed : Instr → List CtxIx
  | .nextRaw64 c => [c]
  | .reseedAuto c => [c]
  | .reseedSeed c => [c]
  | .clone d s => [d, s]
  | .jump c => [c]
  | .boundedInt _ c => [c]
  | .rangedInt _ c => [c]
  | .unitFloat c => [c]
  | .randomChar c => [c]

/-- The slot a command reads key material from, if any: the one that must be seeded (60_exceptions.md R189). -/
def slotNeedsSeed : Instr → Option CtxIx
  | .nextRaw64 c => some c
  | .reseedAuto _ => none
  | .reseedSeed _ => none
  | .clone _ s => some s
  | .jump c => some c
  | .boundedInt _ c => some c
  | .rangedInt _ c => some c
  | .unitFloat c => some c
  | .randomChar c => some c

/-- The same command on another context; CLONE keeps its source. -/
def retarget (c : CtxIx) : Instr → Instr
  | .nextRaw64 _ => .nextRaw64 c
  | .reseedAuto _ => .reseedAuto c
  | .reseedSeed _ => .reseedSeed c
  | .clone _ s => .clone c s
  | .jump _ => .jump c
  | .boundedInt w _ => .boundedInt w c
  | .rangedInt w _ => .rangedInt w c
  | .unitFloat _ => .unitFloat c
  | .randomChar _ => .randomChar c

/-- The state in which a command has ended with a status code and written nothing else (60_exceptions.md R185). -/
def State.endedWith (s : State) (code : BitVec 8) : State :=
  { s with err := code, phase := .idle, work := none, ksAnswer := none, entropyAnswer := none }

/-- The state in which a command has ended normally having written slot `c`, with no value (20_memory.md R63). -/
def State.endedWriting (s : State) (c : CtxIx) (x : Ctx) : State :=
  { s with ctxs := s.ctxs.set c.toNat x, err := 0#8, phase := .idle, work := none, ksAnswer := none,
           entropyAnswer := none }

/-- The state in which a command has ended normally having written slot `c` and RESULT (20_memory.md R63). -/
def State.endedResult (s : State) (c : CtxIx) (x : Ctx) (v : Word) : State :=
  { s with ctxs := s.ctxs.set c.toNat x, result := v, err := 0#8, phase := .idle, work := none, ksAnswer := none,
           entropyAnswer := none }

/-- Slot `c` is `x`, seeded and not failed: CheckDrawable passes (40_engine.md R101). -/
def State.Drawable (s : State) (c : CtxIx) (x : Ctx) : Prop :=
  s.ctxs[c.toNat]? = some x ∧ x.failed = false ∧ x.seeded = true

/-- Every piece of the block's state for which the spec gives a reset value has it (10_state.md R38). -/
def State.AtResetValues (t : State) : Prop :=
  t.phase = .idle ∧ t.ovr = false ∧ t.err = 0#8 ∧ t.cmd = 0#32 ∧ t.result = 0#64 ∧ t.opa = 0#64 ∧ t.opb = 0#64 ∧
  t.seedLen = 0#32 ∧ (∀ k (h : k < 5), t.seed[k] = 0#64) ∧ t.seed5 = 0#32 ∧ t.alphaLen = 0#32 ∧
  (∀ v ∈ t.alpha, v = 0#32) ∧ t.ctxSel = 0#8 ∧
  (∀ x ∈ t.ctxs, x.seeded = false ∧ x.failed = false ∧ x.off = 64 ∧ x.ctr = 0#32)

/-- The byte-by-byte form of NonceInc from byte `i` down (40_engine.md R100): add one to byte `i`, and go on to the byte
before it when the byte has become 0. -/
def carryInc : Nat → Nonce → Nonce
  | 0, n => n.setIfInBounds 0 (n[0] + 1#8)
  | i + 1, n =>
    let b := n[i + 1]?.getD 0#8 + 1#8
    if b = 0#8 then carryInc i (n.setIfInBounds (i + 1) b) else n.setIfInBounds (i + 1) b

/-- A context with its secrets set aside: KEY, NONCE and BUF replaced by fixed bytes (20_memory.md R62). -/
def Ctx.hide (x : Ctx) : Ctx :=
  { x with key := Vector.replicate 32 0#8, nonce := Vector.replicate 12 0#8, buf := Vector.replicate 64 0#8 }

/-- Two states that differ at most in KEY, NONCE and BUF of their slots and of the working copy. -/
def SameButSecrets (s t : State) : Prop :=
  { s with ctxs := s.ctxs.map Ctx.hide, work := s.work.map Ctx.hide }
    = { t with ctxs := t.ctxs.map Ctx.hide, work := t.work.map Ctx.hide }

/-- Two contexts at the same position of the same stream (40_engine.md R112). -/
def SameStream (x y : Ctx) : Prop :=
  x.key = y.key ∧ x.nonce = y.nonce ∧ x.ctr = y.ctr ∧ x.buf = y.buf ∧ x.off = y.off

/-- Everything a command that draws reads outside its context (40_engine.md R111), and what it leaves when it does not
complete: the operands, the alphabet, the latched answer, RESULT and ERR. -/
def SameInputs (s t : State) : Prop :=
  s.opa = t.opa ∧ s.opb = t.opb ∧ s.alphaLen = t.alphaLen ∧ s.alpha = t.alpha ∧ s.ksAnswer = t.ksAnswer ∧
  s.result = t.result ∧ s.err = t.err

end Sys2Proof.Machine
end

