-- ==== Sys2Proof/Certificates/Slice0/Obligations.lean ====
section
/-! DEFINITION. The statements for the provers, from the numbered rules of spec/. In all of them `s.working x` is the context
the command in flight goes on with: slot `x`, or its working copy (log entry 3). -/

open Sys2Proof Sys2Proof.Machine

/-! ## Encoding -/

/-- 30_encoding.md R80 to R84, R94: every well-formed command decodes from its word, at every number of contexts. -/
def Obligations.DecodeOfEncode : Prop :=
  ∀ (n : Nat) (i : Instr), i.wellFormed n = true → decode n (encode i) = .ok i

/-- 30_encoding.md R93: a word that decodes is the word of what it decodes to, and that is well-formed. -/
def Obligations.EncodeOfDecode : Prop :=
  ∀ (n : Nat) (w : Word32) (i : Instr), decode n w = .ok i → encode i = w ∧ i.wellFormed n = true

/-- 30_encoding.md R88: a word is illegal exactly when one of the six items holds; the fields by number (R80). -/
def Obligations.IllegalExactly : Prop :=
  ∀ (n : Nat) (w : Word32),
    let op := w.toNat % 256
    let wd := w.toNat / 2 ^ 8 % 4
    let rsv := w.toNat / 2 ^ 10 % 64
    let ctx := w.toNat / 2 ^ 16 % 256
    let src := w.toNat / 2 ^ 24
    (∃ r, decode n w = .illegal r) ↔
      (op = 0 ∨ 0x0A ≤ op) ∨ rsv ≠ 0 ∨ (wd ≠ 0 ∧ op ≠ 6 ∧ op ≠ 7) ∨ (src ≠ 0 ∧ op ≠ 4) ∨ n ≤ ctx ∨ (op = 4 ∧ n ≤ src)

/-- Words written out from the encodings of 30_encoding.md R94 and 95_test_vectors.md section 2.10, 4 contexts: a sanity
statement. -/
def Obligations.SampleWords : Prop :=
  decode 4 0x00030001#32 = .ok (.nextRaw64 3) ∧ decode 4 0x00010003#32 = .ok (.reseedSeed 1) ∧
  decode 4 0x02010004#32 = .ok (.clone 1 2) ∧ decode 4 0x00020306#32 = .ok (.boundedInt .w64 2) ∧
  decode 4 0x00000107#32 = .ok (.rangedInt .w16 0) ∧ decode 4 0x00000009#32 = .ok (.randomChar 0) ∧
  decode 4 0x00008001#32 = .illegal .reserved ∧ decode 4 0x04000004#32 = .illegal .sourceContext

/-! ## The step -/

/-- 20_memory.md R63: in phase Exec the Engine's turn is `exec` of the instruction the latched word decodes to. 10_state.md
R34, 60_exceptions.md R196, R197: in Idle and in the two waits the Engine's turn does nothing. The turn stands first in the
list, and is taken off. That the Engine moves when the list is empty is the model's choice (log entry 1), and so is
`withFetchWord` (log entry 11): the word it places is what the next step runs, with nothing in flight, in any state. -/
def Obligations.StepRunsDecoded : Prop :=
  (∀ (s : State) (i : Instr), s.phase = .exec → decode s.ctxs.length s.cmd = .ok i →
    (s.turns = [] → step s = exec i s) ∧ (∀ ts, s.turns = .engine :: ts → step s = exec i { s with turns := ts })) ∧
  (∀ s : State, s.phase ≠ .exec →
    (s.turns = [] → step s = .next s) ∧ (∀ ts, s.turns = .engine :: ts → step s = .next { s with turns := ts })) ∧
  (∀ (s : State) (w : Nat) (i : Instr), w < 2 ^ 32 → decode s.ctxs.length (BitVec.ofNat 32 w) = .ok i →
    step (s.withFetchWord 32 w) = exec i { s with cmd := BitVec.ofNat 32 w, phase := .exec, work := none,
                                                  ksAnswer := none, entropyAnswer := none })

/-- 60_exceptions.md R190: a word that fails decoding, and one whose operands do not fit, ends with code 5 and writes nothing
but ERR, whatever the contexts hold; CMD keeps it. -/
def Obligations.IllegalWordEnds : Prop :=
  ∀ (s : State) (ts : List Turn), s.phase = .exec → s.turns = .engine :: ts →
    ((∃ r, decode s.ctxs.length s.cmd = .illegal r) ∨ ∃ i, decode s.ctxs.length s.cmd = .ok i ∧ ¬ operandsFit s i) →
    ∃ t, step s = .next t ∧ t = { s with turns := ts }.endedWith 5#8 ∧ t.cmd = s.cmd

/-- 60_exceptions.md R180: no traps; whatever the state, a step goes on to a next state. 70_reset_and_hazards.md R232: after
the Engine has run a command, the command has ended or waits for a source: the fuel of its rejection loop (log entry 4)
never runs out. -/
def Obligations.EveryCommandEndsOrWaits : Prop :=
  (∀ s : State, ∃ t, step s = .next t) ∧ (∀ (i : Instr) (s t : State), exec i s = .next t → t.phase ≠ .exec)

/-! ## NEXT_RAW64 and the draw -/

/-- 00_scope.md R10, 20_memory.md R65: LE64 is the little-endian sum of eight buffer bytes; BE96 is the big-endian sum of the
nonce bytes, and BE96inv its inverse. -/
def Obligations.ByteOrders : Prop :=
  (∀ (b : Block) (o : Nat) (h : o ≤ 56),
    (le64At b o).toNat = b[o].toNat + 2 ^ 8 * b[o + 1].toNat + 2 ^ 16 * b[o + 2].toNat + 2 ^ 24 * b[o + 3].toNat
      + 2 ^ 32 * b[o + 4].toNat + 2 ^ 40 * b[o + 5].toNat + 2 ^ 48 * b[o + 6].toNat + 2 ^ 56 * b[o + 7].toNat) ∧
  (∀ n : Nonce,
    (be96 n).toNat = n[11].toNat + 2 ^ 8 * n[10].toNat + 2 ^ 16 * n[9].toNat + 2 ^ 24 * n[8].toNat + 2 ^ 32 * n[7].toNat
      + 2 ^ 40 * n[6].toNat + 2 ^ 48 * n[5].toNat + 2 ^ 56 * n[4].toNat + 2 ^ 64 * n[3].toNat + 2 ^ 72 * n[2].toNat
      + 2 ^ 80 * n[1].toNat + 2 ^ 88 * n[0].toNat) ∧
  (∀ n : Nonce, be96inv (be96 n) = n) ∧ (∀ v : BitVec 96, be96 (be96inv v) = v)

/-- 40_engine.md R105: NEXT_RAW64 on a Ready context serves the draw from the buffer and adds 8 to OFF. -/
def Obligations.NextRaw64FromBuffer : Prop :=
  ∀ (c : CtxIx) (s : State) (x : Ctx) (h : (s.working x).off.val ≤ 56), s.Drawable c x →
    exec (.nextRaw64 c) s = .next (s.endedResult c
      { s.working x with off := ⟨(s.working x).off.val + 8, by omega⟩ }
      (le64At (s.working x).buf (s.working x).off.val))

/-- 40_engine.md R102, R105: NEXT_RAW64 on an Exhausted context, the KeystreamSource having answered with status 0: the block
of (KEY, NONCE, CTR), CTR + 1, the nonce's increment exactly when CTR wraps to 0, and the first 8 bytes. -/
def Obligations.NextRaw64AfterRefill : Prop :=
  ∀ (c : CtxIx) (s : State) (x : Ctx), s.Drawable c x → 56 < (s.working x).off.val → s.ksAnswer = some 0#8 →
    let y := s.working x
    let blk := Config.keystreamBlock y.key y.nonce y.ctr
    exec (.nextRaw64 c) s = .next (s.endedResult c
      { y with buf := blk, ctr := y.ctr + 1#32, off := 8,
               nonce := if y.ctr = 0xFFFFFFFF#32 then nonceInc y.nonce else y.nonce }
      (le64At blk 0))

/-- 40_engine.md R102, R113: successive draws with one answer latched walk through the buffer 8 bytes at a time; the draw
that finds OFF > 56 refills, and the draws after it walk through the new block. -/
def Obligations.DrawsWalkTheBuffer : Prop :=
  (∀ (j : Nat) (x : Ctx) (ks : Option (BitVec 8)) (h : x.off.val + 8 * j ≤ 56),
    nthDraw j x ks = .done (le64At x.buf (x.off.val + 8 * j)) { x with off := ⟨x.off.val + 8 * j + 8, by omega⟩ } ks) ∧
  (∀ (j : Nat) (x : Ctx) (h : j < 8), 56 < x.off.val →
    nthDraw j x (some 0#8)
      = .done (le64At (refillCtx x).buf (8 * j)) { refillCtx x with off := ⟨8 * j + 8, by omega⟩ } none)

/-- 10_state.md R34, 60_exceptions.md R196: a command that draws holds in WaitKeystream when its next draw needs a block and
no answer is latched. The draws it has made are in its working copy; slots and registers stay. The hypotheses say that the
draws before were all discarded (none for NEXT_RAW64 and UNIT_FLOAT). -/
def Obligations.DrawHoldsForKeystream : Prop :=
  ∀ (i : Instr) (s : State) (x z : Ctx) (j : Nat), i.draws = true → operandsValid s i → s.Drawable i.ctx x →
    (∀ k, k < j → ∃ r y ks, nthDraw k (s.working x) s.ksAnswer = .done r y ks ∧ outcomeOf s r i = none) →
    nthDraw j (s.working x) s.ksAnswer = .waitKs z →
    exec i s = .next { s with work := some z, ksAnswer := none, phase := .waitKeystream, reqs := s.reqs + 1 }

/-- 40_engine.md R102, 60_exceptions.md R186, 41_sampler.md R145: a command that draws ends with code 4 when its Refill's
status is not 0: the failing Refill writes FAILED only; the draws made before it stay consumed. -/
def Obligations.PrimitiveFailureEnds : Prop :=
  ∀ (i : Instr) (s : State) (x z : Ctx) (j : Nat), i.draws = true → operandsValid s i → s.Drawable i.ctx x →
    (∀ k, k < j → ∃ r y ks, nthDraw k (s.working x) s.ksAnswer = .done r y ks ∧ outcomeOf s r i = none) →
    nthDraw j (s.working x) s.ksAnswer = .primFail z →
    exec i s = .next ({ s with ctxs := s.ctxs.set i.ctx.toNat z }.endedWith 4#8) ∧
    (∃ st, s.ksAnswer = some st ∧ st ≠ 0#8) ∧
    (j = 0 → z = { s.working x with failed := true }) ∧
    (∀ k r y ks, j = k + 1 → nthDraw k (s.working x) s.ksAnswer = .done r y ks → z = { y with failed := true })

/-! ## RESEED_AUTO, RESEED_SEED -/

/-- 40_engine.md R106, 10_state.md R34: RESEED_AUTO without an answer issues its request and holds in WaitEntropy. -/
def Obligations.ReseedAutoWaits : Prop :=
  ∀ (c : CtxIx) (s : State) (x : Ctx), s.ctxs[c.toNat]? = some x → x.failed = false → s.entropyAnswer = none →
    exec (.reseedAuto c) s = .next { s with phase := .waitEntropy, reqs := s.reqs + 1 }

/-- 40_engine.md R106: with 44 bytes RESEED_AUTO splits them into key and nonce, sets CTR 0, OFF 64, SEEDED 1; BUF and RESULT
stay. -/
def Obligations.ReseedAutoSeeds : Prop :=
  ∀ (c : CtxIx) (s : State) (x : Ctx) (e : Seed), s.ctxs[c.toNat]? = some x → x.failed = false →
    s.entropyAnswer = some (.bytes e) →
    ∃ k : Key, ∃ n : Nonce, (∀ i (h : i < 32), k[i] = e[i]) ∧ (∀ i (h : i < 12), n[i] = e[32 + i]) ∧
      exec (.reseedAuto c) s
        = .next (s.endedWriting c { x with key := k, nonce := n, ctr := 0#32, off := 64, seeded := true })

/-- 60_exceptions.md R187: when the EntropySource answers `fail`, RESEED_AUTO writes nothing but FAILED and ends with 7. -/
def Obligations.EntropyFailureEnds : Prop :=
  ∀ (c : CtxIx) (s : State) (x : Ctx), s.ctxs[c.toNat]? = some x → x.failed = false →
    s.entropyAnswer = some .fail →
    exec (.reseedAuto c) s
      = .next ({ s with ctxs := s.ctxs.set c.toNat { x with failed := true } }.endedWith 7#8)

/-- 40_engine.md R107, 20_memory.md R60: RESEED_SEED with at least 44 bytes; the bytes come from the seed registers, eight to
a register, the low byte first. -/
def Obligations.ReseedSeedSeeds : Prop :=
  ∀ (c : CtxIx) (s : State) (x : Ctx), s.ctxs[c.toNat]? = some x → x.failed = false → 44 ≤ s.seedLen.toNat →
    ∃ k : Key, ∃ n : Nonce,
      (∀ j (h : j < 32), k[j].toNat = s.seed[j / 8].toNat / 2 ^ (8 * (j % 8)) % 256) ∧
      (∀ j (h : j < 8), n[j].toNat = s.seed[4].toNat / 2 ^ (8 * j) % 256) ∧
      (∀ j (h : j < 4), n[8 + j].toNat = s.seed5.toNat / 2 ^ (8 * j) % 256) ∧
      exec (.reseedSeed c) s
        = .next (s.endedWriting c { x with key := k, nonce := n, ctr := 0#32, off := 64, seeded := true })

/-- 60_exceptions.md R182, R184; 40_engine.md R107; 41_sampler.md R150, R151, R160: operand validation. RESEED_SEED with fewer
than 44 bytes ends with code 1, RANGED_INT with min > max, unsigned, with code 2, RANDOM_CHAR with an empty alphabet with
code 3; nothing else is written and no draw is made. -/
def Obligations.OperandValidation : Prop :=
  (∀ (c : CtxIx) (s : State) (x : Ctx), s.ctxs[c.toNat]? = some x → x.failed = false → s.seedLen.toNat < 44 →
    exec (.reseedSeed c) s = .next (s.endedWith 1#8)) ∧
  (∀ (w : Width) (c : CtxIx) (s : State) (x : Ctx), s.opa.toNat < 2 ^ bitsOf w → s.opb.toNat < 2 ^ bitsOf w →
    s.Drawable c x → s.opb.toNat < s.opa.toNat → exec (.rangedInt w c) s = .next (s.endedWith 2#8)) ∧
  (∀ (c : CtxIx) (s : State) (x : Ctx), s.Drawable c x → s.alphaLen = 0#32 →
    exec (.randomChar c) s = .next (s.endedWith 3#8))

/-! ## CLONE, JUMP -/

/-- 40_engine.md R108: CLONE copies every field of the source but FAILED; a clone of a slot into itself changes nothing. -/
def Obligations.CloneCopies : Prop :=
  ∀ (d src : CtxIx) (s : State) (xd xs : Ctx), s.ctxs[d.toNat]? = some xd → s.ctxs[src.toNat]? = some xs →
    xd.failed = false → xs.failed = false → xs.seeded = true →
    ∃ t, exec (.clone d src) s = .next t ∧ t = s.endedWriting d xs ∧ t.ctxs[src.toNat]? = some xs ∧
      (d = src → t.ctxs = s.ctxs)

/-- 40_engine.md R109: JUMP adds one to the nonce, sets CTR 0 and OFF 64, and leaves KEY, BUF and RESULT. -/
def Obligations.JumpAdvances : Prop :=
  ∀ (c : CtxIx) (s : State) (x : Ctx), s.Drawable c x →
    ∃ n : Nonce, (be96 n).toNat = ((be96 x.nonce).toNat + 1) % 2 ^ 96 ∧
      exec (.jump c) s = .next (s.endedWriting c { x with nonce := n, ctr := 0#32, off := 64 })

/-- 40_engine.md R100: NonceInc adds one to the 96-bit big-endian number and drops the carry out of byte 0; the byte-by-byte
form is the same function. -/
def Obligations.NonceIncByBytes : Prop :=
  ∀ n : Nonce, (be96 (nonceInc n)).toNat = ((be96 n).toNat + 1) % 2 ^ 96 ∧ nonceInc n = carryInc 11 n

/-! ## Laws of the engine -/

/-- 40_engine.md R110, R114: a Refill asks for the block of the position before it, adds 1 to the 128-bit position, and changes
NONCE exactly when the counter it passed was 2^32 - 1, then by NonceInc, and the counter becomes 0; JUMP moves to the start
of the next nonce. -/
def Obligations.PositionLaw : Prop :=
  ∀ x : Ctx, (refillCtx x).buf = Config.keystreamBlock x.key x.nonce x.ctr ∧
    position (refillCtx x) = (position x + 1) % 2 ^ 128 ∧
    ((refillCtx x).nonce ≠ x.nonce ↔ x.ctr.toNat = 2 ^ 32 - 1) ∧
    (x.ctr.toNat = 2 ^ 32 - 1 → (refillCtx x).nonce = nonceInc x.nonce ∧ (refillCtx x).ctr = 0#32) ∧
    position (jumpCtx x) = ((be96 x.nonce).toNat + 1) % 2 ^ 96 * 2 ^ 32

/-- 40_engine.md R113: how many Refills k raw draws perform, where they leave OFF, and how far CTR advances. -/
def Obligations.RefillCount : Prop :=
  ∀ (x : Ctx) (k : Nat), x.off.val % 8 = 0 → 1 ≤ k →
    let a := (64 - x.off.val) / 8
    let refills := if k ≤ a then 0 else (k - a + 7) / 8
    (drawMany k x).1.length = k ∧ (drawMany k x).2.2 = refills ∧
      (drawMany k x).2.1.off.val = (if k ≤ a then x.off.val + 8 * k else 8 * ((k - a - 1) % 8 + 1)) ∧
      position (drawMany k x).2.1 = (position x + refills) % 2 ^ 128

/-- 40_engine.md R111, R112: the values of a sequence of draws depend on the stream's position alone, and the two contexts
stay at one position. -/
def Obligations.SameStreamSameDraws : Prop :=
  ∀ (x y : Ctx) (k : Nat), SameStream x y →
    (drawMany k x).1 = (drawMany k y).1 ∧ SameStream (drawMany k x).2.1 (drawMany k y).2.1

/-- 40_engine.md R111, R112: a command that draws, run on two contexts at one position of one stream with the same operands
and answer, gives the same RESULT and code, and leaves both at one position. The two contexts stand in one state or in two,
at a command's start or where it goes on after a wait, with its working copies (log entries 3, 19) at one position. -/
def Obligations.SameStreamSameCommand : Prop :=
  ∀ (i : Instr) (c d : CtxIx) (s s' t u : State) (x y : Ctx), i.draws = true → SameInputs s s' →
    s.Drawable c x → s'.Drawable d y → SameStream x y → SameStream (s.working x) (s'.working y) →
    exec (retarget c i) s = .next t → exec (retarget d i) s' = .next u →
    t.result = u.result ∧ t.err = u.err ∧ t.phase = u.phase ∧
      (∀ x' y', t.ctxs[c.toNat]? = some x' → u.ctxs[d.toNat]? = some y' → SameStream x' y') ∧
      (∀ x' y', t.work = some x' → u.work = some y' → SameStream x' y')

/-- 70_reset_and_hazards.md R227: two workers forked from one unchanged master hold the same substream: same key, nonce
NONCE + 1, CTR 0, OFF 64. -/
def Obligations.ForkTwiceSameSubstream : Prop :=
  ∀ (m c1 c2 : CtxIx) (s s1 s2 s3 s4 : State) (x1 x2 xm : Ctx), c1 ≠ m → c2 ≠ m → c1 ≠ c2 → s.Drawable m xm →
    (∃ y, s.ctxs[c1.toNat]? = some y ∧ y.failed = false) → (∃ y, s.ctxs[c2.toNat]? = some y ∧ y.failed = false) →
    exec (.clone c1 m) s = .next s1 → exec (.jump c1) s1 = .next s2 →
    exec (.clone c2 m) s2 = .next s3 → exec (.jump c2) s3 = .next s4 →
    s4.ctxs[c1.toNat]? = some x1 → s4.ctxs[c2.toNat]? = some x2 →
    x1 = x2 ∧ x1.key = xm.key ∧ x1.ctr = 0#32 ∧ x1.off = 64 ∧ s4.ctxs[m.toNat]? = some xm ∧
      (be96 x1.nonce).toNat = ((be96 xm.nonce).toNat + 1) % 2 ^ 96

/-- 70_reset_and_hazards.md R228: the jumped stream is the parent's continuation after its counter wraps: once the parent
has refilled at counter 2^32 - 1 and used that block up, its draws are the jumped context's. -/
def Obligations.JumpIsContinuation : Prop :=
  ∀ (x : Ctx) (k : Nat), x.ctr = 0xFFFFFFFF#32 → 56 < x.off.val →
    (drawMany (8 + k) x).1.drop 8 = (drawMany k (jumpCtx x)).1

/-! ## BOUNDED_INT, RANGED_INT, UNIT_FLOAT, RANDOM_CHAR -/

/-- 41_sampler.md R146, R141, R145: BOUNDED_INT completes with the first draw the policy accepts; the discarded draws before
it are consumed. `acceptDraw` is the policy's text. -/
def Obligations.BoundedIntCompletes : Prop :=
  ∀ (w : Width) (c : CtxIx) (s : State) (x z : Ctx) (j v : Nat) (r : Word) (ks : Option (BitVec 8)),
    s.opa.toNat < 2 ^ bitsOf w → s.Drawable c x →
    (∀ k, k < j → ∃ r' y ks', nthDraw k (s.working x) s.ksAnswer = .done r' y ks' ∧
      acceptDraw w s.opa.toNat (r'.toNat % 2 ^ bitsOf w) = none) →
    nthDraw j (s.working x) s.ksAnswer = .done r z ks →
    acceptDraw w s.opa.toNat (r.toNat % 2 ^ bitsOf w) = some v →
    exec (.boundedInt w c) s = .next (s.endedResult c z (BitVec.ofNat 64 v))

/-- 41_sampler.md R150: RANGED_INT is `BoundedInteger(max - min, width) + min`. -/
def Obligations.RangedIntCompletes : Prop :=
  ∀ (w : Width) (c : CtxIx) (s : State) (x z : Ctx) (j v : Nat) (r : Word) (ks : Option (BitVec 8)),
    s.opa.toNat ≤ s.opb.toNat → s.opb.toNat < 2 ^ bitsOf w → s.Drawable c x →
    (∀ k, k < j → ∃ r' y ks', nthDraw k (s.working x) s.ksAnswer = .done r' y ks' ∧
      acceptDraw w (s.opb.toNat - s.opa.toNat) (r'.toNat % 2 ^ bitsOf w) = none) →
    nthDraw j (s.working x) s.ksAnswer = .done r z ks →
    acceptDraw w (s.opb.toNat - s.opa.toNat) (r.toNat % 2 ^ bitsOf w) = some v →
    exec (.rangedInt w c) s = .next (s.endedResult c z (BitVec.ofNat 64 (v + s.opa.toNat)))

/-- 41_sampler.md R160: RANDOM_CHAR draws an index of width 32 below ALPHA_LEN and gives that entry, zero-extended. -/
def Obligations.RandomCharCompletes : Prop :=
  ∀ (c : CtxIx) (s : State) (x z : Ctx) (j v : Nat) (r : Word) (ks : Option (BitVec 8)),
    0 < s.alphaLen.toNat → s.alphaLen.toNat ≤ s.alpha.length → s.Drawable c x →
    (∀ k, k < j → ∃ r' y ks', nthDraw k (s.working x) s.ksAnswer = .done r' y ks' ∧
      acceptDraw .w32 (s.alphaLen.toNat - 1) (r'.toNat % 2 ^ 32) = none) →
    nthDraw j (s.working x) s.ksAnswer = .done r z ks →
    acceptDraw .w32 (s.alphaLen.toNat - 1) (r.toNat % 2 ^ 32) = some v →
    ∃ h : v < s.alpha.length,
      exec (.randomChar c) s = .next (s.endedResult c z (BitVec.ofNat 64 s.alpha[v].toNat))

/-- 41_sampler.md R156: UNIT_FLOAT takes exactly one raw draw and gives F64 of its top 53 bits; the bits below never matter. -/
def Obligations.UnitFloatCompletes : Prop :=
  ∀ (c : CtxIx) (s : State) (x z : Ctx), s.Drawable c x → readyCtx (s.working x) s.ksAnswer = some z →
    ∃ h : z.off.val ≤ 56,
      exec (.unitFloat c) s = .next (s.endedResult c { z with off := ⟨z.off.val + 8, by omega⟩ }
        (f64 ((le64At z.buf z.off.val).toNat / 2 ^ 11)))

/-- 41_sampler.md R155: F64(k) is the binary64 encoding of k * 2^-53: sign 0, and with biased exponent E and fraction f the
value (2^52 + f) * 2^(E - 1075) is k * 2^-53, exactly; E is in [970, 1022]. The binary64 layout is PRESUMED by the spec
(93 G2, log entry 15). R157: two raw draws give the same float exactly when they agree in their top 53 bits. -/
def Obligations.F64Value : Prop :=
  f64 0 = 0#64 ∧
  (∀ k : Nat, 0 < k → k < 2 ^ 53 →
    let b := (f64 k).toNat
    let e := b / 2 ^ 52
    let f := b % 2 ^ 52
    970 ≤ e ∧ e ≤ 1022 ∧ (2 ^ 52 + f) * 2 ^ (e - 970) = k * 2 ^ 52) ∧
  (∀ r r' : Word, f64 (r.toNat / 2 ^ 11) = f64 (r'.toNat / 2 ^ 11) ↔ r.toNat / 2 ^ 11 = r'.toNat / 2 ^ 11)

/-- 41_sampler.md R144: the model's limit is the largest multiple of n not above 2^w, and the two forms of the test agree. -/
def Obligations.RejectLimitLargest : Prop :=
  ∀ (w : Width) (n : Nat), 3 ≤ n → n ≤ 2 ^ bitsOf w - 1 → (¬ ∃ k, n = 2 ^ k) →
    rejectLimit w n = n * (2 ^ bitsOf w / n) ∧ n ∣ rejectLimit w n ∧
    (∀ q, n ∣ q → q ≤ 2 ^ bitsOf w → q ≤ rejectLimit w n) ∧
    (∀ v, v < 2 ^ bitsOf w →
      (v < rejectLimit w n ↔ v ≤ 2 ^ bitsOf w - 1 - (2 ^ bitsOf w - n) % 2 ^ bitsOf w % n)) ∧
    1 ≤ 2 ^ bitsOf w % n

/-- 41_sampler.md R147: every result in [0, m] has exactly 2^w div (m + 1) accepted w-bit draws, and no other has any. -/
def Obligations.UniformPreimages : Prop :=
  ∀ (w : Width) (m r : Nat), m < 2 ^ bitsOf w →
    ((Finset.range (2 ^ bitsOf w)).filter fun v => acceptDraw w m v = some r).card
      = if r ≤ m then 2 ^ bitsOf w / (m + 1) else 0

/-- 41_sampler.md R141, R150, R160: what a completed sampler command gives lies in its range. -/
def Obligations.SamplerInRange : Prop :=
  (∀ (w : Width) (c : CtxIx) (s t : State), exec (.boundedInt w c) s = .next t → t.phase = .idle → t.err = 0#8 →
    t.result.toNat ≤ s.opa.toNat) ∧
  (∀ (w : Width) (c : CtxIx) (s t : State), exec (.rangedInt w c) s = .next t → t.phase = .idle → t.err = 0#8 →
    s.opa.toNat ≤ t.result.toNat ∧ t.result.toNat ≤ s.opb.toNat) ∧
  (∀ (c : CtxIx) (s t : State), exec (.randomChar c) s = .next t → t.phase = .idle → t.err = 0#8 →
    ∃ (i : Nat) (h : i < s.alpha.length), i < s.alphaLen.toNat ∧ t.result.toNat = s.alpha[i].toNat)

/-! ## Errors -/

/-- 30_encoding.md R87: an operand that does not fit ends the command with code 5 before anything else, whatever the state of
its context; at width 64 every value fits. A command on slots the block has ends with code 5 for no other reason. -/
def Obligations.OperandMisfitEnds : Prop :=
  (∀ (i : Instr) (s : State), ¬ operandsFit s i → exec i s = .next (s.endedWith 5#8)) ∧
  (∀ (c : CtxIx) (s : State), operandsFit s (.boundedInt .w64 c) ∧ operandsFit s (.rangedInt .w64 c)) ∧
  (∀ (i : Instr) (s t : State), (∀ c ∈ slotsNamed i, c.toNat < s.ctxs.length) → operandsFit s i →
    exec i s = .next t → t.phase = .idle → t.err ≠ 5#8)

/-- 60_exceptions.md R188, R184: a command whose operands fit and that names a failed slot ends with code 8 and writes nothing
but ERR, for every command. -/
def Obligations.InstanceFailedEnds : Prop :=
  ∀ (i : Instr) (s : State), operandsFit s i → (∀ c ∈ slotsNamed i, c.toNat < s.ctxs.length) →
    (∃ c ∈ slotsNamed i, ∃ x, s.ctxs[c.toNat]? = some x ∧ x.failed = true) →
    exec i s = .next (s.endedWith 8#8)

/-- 60_exceptions.md R189, R184: a command that draws from, jumps or clones an unseeded slot ends with code 6 and writes
nothing but ERR, when its operands fit and no slot it names has failed; before operand validation. No other command ends with
code 6: neither a reseed, nor a CLONE for its destination. -/
def Obligations.NotSeededEnds : Prop :=
  (∀ (i : Instr) (s : State) (c : CtxIx) (x : Ctx), operandsFit s i →
    (∀ d ∈ slotsNamed i, ∃ y, s.ctxs[d.toNat]? = some y ∧ y.failed = false) →
    slotNeedsSeed i = some c → s.ctxs[c.toNat]? = some x → x.seeded = false →
    exec i s = .next (s.endedWith 6#8)) ∧
  (∀ (i : Instr) (s t : State), exec i s = .next t → t.phase = .idle → t.err = 6#8 →
    ∃ c x, slotNeedsSeed i = some c ∧ s.ctxs[c.toNat]? = some x ∧ x.seeded = false)

/-- 60_exceptions.md R185: a command that ends with an error of class 1 to 4, the words that fail decoding among them, writes
only ERR (and BUSY falls). -/
def Obligations.ValidateBeforeMutate : Prop :=
  ∀ s t : State, runCommand s = .next t → t.phase = .idle → t.err ∈ [1#8, 2#8, 3#8, 5#8, 6#8, 8#8] →
    t = s.endedWith t.err

/-- 60_exceptions.md R181: no code above 8 is ever produced. -/
def Obligations.ErrCodesInTable : Prop :=
  ∀ s t : State, s.ErrInTable → step s = .next t → t.ErrInTable

/-- 10_state.md R29, R30; 60_exceptions.md R188: only reset clears SEEDED and FAILED; a failed slot does not change at all until
reset. The premise is the invariant `WorkUsable`, stated as a claim of its own. -/
def Obligations.SeededFailedSticky : Prop :=
  ∀ (s t : State) (j : Nat) (x : Ctx), s.WorkUsable → s.turns.head? ≠ some .reset → step s = .next t →
    s.ctxs[j]? = some x →
    ∃ y, t.ctxs[j]? = some y ∧ (x.seeded = true → y.seeded = true) ∧ (x.failed = true → y = x)

/-! ## Frames -/

/-- 10_state.md R35, 20_memory.md R58 to R62: no command writes a host register but RESULT and STATUS; RESULT only a command
that draws, ending with code 0. -/
def Obligations.ExecFrameRegisters : Prop :=
  ∀ (i : Instr) (s t : State), exec i s = .next t →
    t.cmd = s.cmd ∧ t.ovr = s.ovr ∧ t.opa = s.opa ∧ t.opb = s.opb ∧ t.seedLen = s.seedLen ∧ t.seed = s.seed ∧
    t.seed5 = s.seed5 ∧ t.alphaLen = s.alphaLen ∧ t.alpha = s.alpha ∧ t.ctxSel = s.ctxSel ∧ t.turns = s.turns ∧
    t.reply = s.reply ∧ (t.result ≠ s.result → i.draws = true ∧ t.phase = .idle ∧ t.err = 0#8)

/-- 10_state.md R32: no command writes a slot other than CTX, and the number of slots stays. -/
def Obligations.ExecFrameSlots : Prop :=
  ∀ (i : Instr) (s t : State), exec i s = .next t →
    t.ctxs.length = s.ctxs.length ∧ ∀ j, j ≠ i.ctx.toNat → t.ctxs[j]? = s.ctxs[j]?

/-- 10_state.md R21: of all commands only RESEED_AUTO, RESEED_SEED and CLONE, ending with code 0, write KEY. 10_state.md R21,
R24, 40_engine.md R103, R110: a command that draws leaves KEY and SEEDED of its slot. Its slot stays as it is while it waits
and when it ends with an error of class 1 to 4; otherwise BUF, CTR and NONCE are those of the context it goes on with, or
of one Refill of it, which takes a latched success. A command that goes on after a wait is included: the premise says that
its working copy is of its slot, which every step keeps (StepKeepsCoherent). -/
def Obligations.DrawFrame : Prop :=
  ∀ (i : Instr) (s t : State) (x y : Ctx), s.WorkOfSlot i → exec i s = .next t →
    s.ctxs[i.ctx.toNat]? = some x → t.ctxs[i.ctx.toNat]? = some y →
    (y.key ≠ x.key → t.phase = .idle ∧ t.err = 0#8 ∧
      ((∃ c, i = .reseedAuto c) ∨ (∃ c, i = .reseedSeed c) ∨ ∃ d c, i = .clone d c)) ∧
    (i.draws = true →
      y.key = x.key ∧ y.seeded = x.seeded ∧ (x.failed = true → y.failed = true) ∧
      (y ≠ x → t.phase = .idle ∧ (t.err = 0#8 ∨ t.err = 4#8) ∧
        ((y.buf = (s.working x).buf ∧ y.ctr = (s.working x).ctr ∧ y.nonce = (s.working x).nonce) ∨
          (s.ksAnswer = some 0#8 ∧ y.buf = (refillCtx (s.working x)).buf ∧ y.ctr = (refillCtx (s.working x)).ctr ∧
            y.nonce = (refillCtx (s.working x)).nonce))))

/-! ## The host port -/

/-- 20_memory.md R52, 60_exceptions.md R201: an access that is not admitted is answered with a bus error; R55: a read of an
admitted offset is answered with a value; neither changes any state of the block. R53: a reserved offset reads 0. -/
def Obligations.ReadsAndBusErrors : Prop :=
  (∀ (s : State) (ts : List Turn) (size off : Nat) (v : Word), size ≠ 8 ∨ off % 8 ≠ 0 ∨ 0x100000 ≤ off →
    (s.turns = .host (.read size off) :: ts → step s = .next { s with turns := ts, reply := .busError }) ∧
    (s.turns = .host (.write size off v) :: ts → step s = .next { s with turns := ts, reply := .busError })) ∧
  (∀ (s : State) (ts : List Turn) (off : Nat), off % 8 = 0 → off < 0x100000 → s.turns = .host (.read 8 off) :: ts →
    step s = .next { s with turns := ts, reply := .data (hostRead s off) } ∧
      ((0x50 ≤ off ∧ off < 0x100) ∨ (0x130 ≤ off ∧ off < 0x1000) ∨ 0x1000 + 8 * s.alpha.length ≤ off →
        hostRead s off = 0#64))

/-- 20_memory.md R54, R57: while BUSY is 1 an admitted write is dropped and sets OVR, but a write of 1 to STATUS bit 1 clears
it. -/
def Obligations.BusyWriteDropped : Prop :=
  ∀ (s : State) (ts : List Turn) (off : Nat) (v : Word), s.phase ≠ .idle → off % 8 = 0 → off < 0x100000 →
    s.turns = .host (.write 8 off v) :: ts →
    step s = .next { s with turns := ts, reply := .done, ovr := !(decide (off = 8) && v.getLsbD 1) }

/-- 20_memory.md R63: while BUSY is 0 a write to CMD latches the low 32 bits and starts a command: BUSY 1, phase Exec, nothing
in flight (log entry 21); nothing else changes. -/
def Obligations.CmdWriteIssues : Prop :=
  ∀ (s : State) (ts : List Turn) (v : Word), s.phase = .idle → s.turns = .host (.write 8 0 v) :: ts →
    step s = .next { s with turns := ts, reply := .done, cmd := BitVec.ofNat 32 v.toNat, phase := .exec, work := none,
                            ksAnswer := none, entropyAnswer := none }

/-- 20_memory.md R54: HostWrite of an admitted access, case by case. That the write to CMD, which starts a command, also
clears what was in flight is the model's inference (log entry 21). -/
def Obligations.HostWriteRule : Prop :=
  ∀ (s : State) (off : Nat) (v : Word), off % 8 = 0 → off < 0x100000 →
    (s.phase ≠ .idle → hostWrite s off v = { s with ovr := !(decide (off = 8) && v.getLsbD 1) }) ∧
    (s.phase = .idle →
      (off = 0x00 → hostWrite s off v = { s with cmd := BitVec.ofNat 32 v.toNat, phase := .exec, work := none,
                                                 ksAnswer := none, entropyAnswer := none }) ∧
      (off = 0x08 → hostWrite s off v = { s with ovr := s.ovr && !v.getLsbD 1 }) ∧
      (off = 0x18 → hostWrite s off v = { s with opa := v }) ∧
      (off = 0x20 → hostWrite s off v = { s with opb := v }) ∧
      (off = 0x28 → hostWrite s off v = { s with seedLen := BitVec.ofNat 32 v.toNat }) ∧
      (off = 0x30 → hostWrite s off v = { s with alphaLen := BitVec.ofNat 32 v.toNat }) ∧
      (off = 0x38 → hostWrite s off v = { s with ctxSel := BitVec.ofNat 8 v.toNat }) ∧
      (∀ k (h : k < 5), off = 0x100 + 8 * k → hostWrite s off v = { s with seed := s.seed.set k v }) ∧
      (off = 0x128 → hostWrite s off v = { s with seed5 := BitVec.ofNat 32 v.toNat }) ∧
      (∀ i, i < s.alpha.length → off = 0x1000 + 8 * i →
        hostWrite s off v = { s with alpha := s.alpha.set i (BitVec.ofNat 32 v.toNat) }) ∧
      (off = 0x10 ∨ off = 0x40 ∨ off = 0x48 ∨ (0x50 ≤ off ∧ off < 0x100) ∨ (0x130 ≤ off ∧ off < 0x1000) ∨
        0x1000 + 8 * s.alpha.length ≤ off → hostWrite s off v = s))

/-- 20_memory.md R54, R56, R59 to R62, R51: while BUSY is 0 a read/write register reads back the bits its rule defines, and
the write changes no other register but CTX_INFO (through CTX_SEL) and STATUS (a write of CMD starts a command). STATUS
itself is not one of them: HostWriteRule says what a write of it does. -/
def Obligations.WriteReadsBack : Prop :=
  ∀ (s : State) (r : Reg) (v : Word), s.phase = .idle →
    (r = .cmd ∨ r = .opa ∨ r = .opb ∨ r = .seedLen ∨ r = .alphaLen ∨ r = .ctxSel ∨ (∃ k, r = .seed k) ∨
      (∃ i, i < s.alpha.length ∧ r = .alpha i)) →
    let t := hostWrite s (regOffset r) v
    (hostRead t (regOffset r)).toNat = v.toNat % 2 ^ (match r with
      | .opa => 64 | .opb => 64 | .ctxSel => 8 | .seed k => if k.val = 5 then 32 else 64 | _ => 32) ∧
    (∀ off, off % 8 = 0 → off ≠ regOffset r → (off ≠ 0x40 ∨ r ≠ .ctxSel) → (off ≠ 0x08 ∨ r ≠ .cmd) →
      hostRead t off = hostRead s off) ∧
    t.ctxs = s.ctxs ∧ t.phase = (if r = .cmd then .exec else s.phase)

/-- 20_memory.md R55 to R62, R64: what every register of the window reads as: CMD the latched word with bits 63:32 zero,
RESULT and the operand registers their values, STATUS, CTX_INFO and PARAMS their fields by their bits. -/
def Obligations.ViewFields : Prop :=
  (∀ s : State, (hostRead s 0x00).toNat = s.cmd.toNat ∧ hostRead s 0x10 = s.result ∧ hostRead s 0x18 = s.opa ∧
    hostRead s 0x20 = s.opb ∧ (hostRead s 0x28).toNat = s.seedLen.toNat ∧ (hostRead s 0x30).toNat = s.alphaLen.toNat ∧
    (hostRead s 0x38).toNat = s.ctxSel.toNat ∧ (∀ k (h : k < 5), hostRead s (0x100 + 8 * k) = s.seed[k]) ∧
    (hostRead s 0x128).toNat = s.seed5.toNat ∧
    (∀ i (h : i < s.alpha.length), (hostRead s (0x1000 + 8 * i)).toNat = s.alpha[i].toNat)) ∧
  (∀ s : State, (hostRead s 8).toNat = (if s.phase = .idle then 0 else 1) + 2 * s.ovr.toNat + 2 ^ 8 * s.err.toNat) ∧
  (∀ (s : State) (x : Ctx), s.ctxs[s.ctxSel.toNat]? = some x →
    (hostRead s 0x40).toNat = x.seeded.toNat + 2 * x.failed.toNat + 4 * (if 56 < x.off.val then 1 else 0)
      + 2 ^ 8 * x.off.val + 2 ^ 32 * x.ctr.toNat) ∧
  (∀ s : State, s.ctxs.length ≤ s.ctxSel.toNat → hostRead s 0x40 = 0#64) ∧
  (∀ s : State, s.ParamsInRange → (hostRead s 0x48).toNat = s.ctxs.length + 2 ^ 16 * s.alpha.length)

/-- 20_memory.md R51: the register map: offset and register determine each other. -/
def Obligations.RegisterMap : Prop :=
  ∀ (cap off : Nat) (r : Reg), off % 8 = 0 →
    (regAt cap off = some r ↔ regOffset r = off ∧ ∀ i, r = .alpha i → i < cap)

/-- 20_memory.md R62, 60_exceptions.md R193: KEY, NONCE and BUF are readable through no register: states that differ in
nothing else read alike at every offset. -/
def Obligations.SecretsUnreadable : Prop :=
  ∀ (s t : State) (off : Nat), SameButSecrets s t → hostRead s off = hostRead t off

/-- 20_memory.md R62, 10_state.md R37: a step other than the Engine's run of a command that draws carries two states that
differ in the secrets alone to two such states: the host can learn of KEY, NONCE and BUF only through draws. -/
def Obligations.SecretsStaySecret : Prop :=
  ∀ s t s' t' : State, SameButSecrets s t →
    ¬ (s.phase = .exec ∧ s.RunsDraw ∧ (s.turns = [] ∨ s.turns.head? = some .engine)) →
    step s = .next s' → step t = .next t' → SameButSecrets s' t'

/-- 20_memory.md R67: as long as BUSY stays 1, every register but STATUS shows its value from before, and so does STATUS but
for OVR; the slots do not change. -/
def Obligations.BusyShowsOldValues : Prop :=
  ∀ s t : State, s.phase ≠ .idle → step s = .next t → t.phase ≠ .idle →
    (∀ off, off % 8 = 0 → off ≠ 8 → hostRead t off = hostRead s off) ∧ t.err = s.err ∧ t.ctxs = s.ctxs

/-! ## The sources and reset -/

/-- 60_exceptions.md R196, R197, 70_reset_and_hazards.md R211: the answer to the outstanding request lets the engine go on;
any other answer is discarded. Requests are numbered by the model's own count (log entry 8): a step that enters a wait
takes the next number, and no step, a reset included, lowers the count or raises it otherwise, so no number is given out
twice and an answer to a request from before a reset is never the answer to a later one. -/
def Obligations.AnswersReachTheRequest : Prop :=
  (∀ (s : State) (ts : List Turn) (q : Nat) (st : BitVec 8) (e : EntropyAnswer),
    (s.turns = .keystream q st :: ts → step s = .next (if s.phase = .waitKeystream ∧ q = s.reqs
      then { s with turns := ts, ksAnswer := some st, phase := .exec } else { s with turns := ts })) ∧
    (s.turns = .entropy q e :: ts → step s = .next (if s.phase = .waitEntropy ∧ q = s.reqs
      then { s with turns := ts, entropyAnswer := some e, phase := .exec } else { s with turns := ts }))) ∧
  (∀ s t : State, step s = .next t → s.reqs ≤ t.reqs ∧
    t.reqs = s.reqs + if s.phase = .exec ∧ (t.phase = .waitEntropy ∨ t.phase = .waitKeystream) then 1 else 0)

/-- 10_state.md R38, 70_reset_and_hazards.md R210: what asserting reset leaves, at any time, and the same of the state after
reset itself, whose parameters 4 and 256 are the model's choice (log entry 6). KEY, NONCE and BUF have no value in the spec
and are not mentioned. -/
def Obligations.ResetLeaves : Prop :=
  (∀ (s : State) (ts : List Turn), s.turns = .reset :: ts →
    ∃ t, step s = .next t ∧ t.AtResetValues ∧ t.ctxs.length = s.ctxs.length ∧ t.alpha.length = s.alpha.length) ∧
  State.reset.AtResetValues ∧ State.reset.ctxs.length = 4 ∧ State.reset.alpha.length = 256

/-! ## Invariants -/

/-- 10_state.md R26: every step keeps the provenance of every buffer. -/
def Obligations.StepKeepsProvenance : Prop :=
  ∀ s t : State, s.EveryCtx Ctx.Provenance → step s = .next t → t.EveryCtx Ctx.Provenance

/-- 10_state.md R25, R29: every step keeps OFF a multiple of 8, and an unseeded slot at its reset position; the latter needs
the working copy to be of a seeded context, which every step keeps too. -/
def Obligations.StepKeepsCtxShape : Prop :=
  ∀ s t : State, s.WorkUsable → s.EveryCtx Ctx.Aligned → s.EveryCtx Ctx.FreshUntilSeeded → step s = .next t →
    t.WorkUsable ∧ t.EveryCtx Ctx.Aligned ∧ t.EveryCtx Ctx.FreshUntilSeeded

/-- 10_state.md R34, R36, 20_memory.md R74: every step keeps the sequencer's state fit to its phase, and no step changes the
parameters. 10_state.md R21, R29, R30: every step keeps the working copy (log entry 3) at the KEY, SEEDED and FAILED of the
slot the latched word names. -/
def Obligations.StepKeepsCoherent : Prop :=
  ∀ s t : State, step s = .next t →
    (s.Coherent → t.Coherent) ∧ (s.WorkAgrees → t.WorkAgrees) ∧ t.ctxs.length = s.ctxs.length ∧ t.alpha.length = s.alpha.length

/-- The reset state meets every invariant above. -/
def Obligations.ResetMeetsInvariants : Prop :=
  State.reset.EveryCtx Ctx.Provenance ∧ State.reset.EveryCtx Ctx.Aligned ∧ State.reset.EveryCtx Ctx.FreshUntilSeeded ∧
  State.reset.WorkUsable ∧ State.reset.WorkAgrees ∧ State.reset.Coherent ∧ State.reset.ErrInTable ∧ State.reset.ParamsInRange
end

