-- ==== Sys2Proof/Laws/Bytes.lean ====
section
/-! SUPPORT. The byte orders: LE64, BE96 and BE96inv byte by byte and as numbers (00_scope.md R10; 20_memory.md R65). -/

namespace Sys2Proof.Machine

/-- Appending a byte, as numbers. -/
theorem toNat_append_byte {n : Nat} (v : BitVec n) (b : Byte) : (v ++ b).toNat = v.toNat * 256 + b.toNat := by
  rw [BitVec.toNat_append, Nat.shiftLeft_eq, Nat.mul_comm, ← Nat.two_pow_add_eq_or_of_lt b.isLt]

/-- Byte 0 of an appended byte. -/
theorem regByte_append_zero {n : Nat} (v : BitVec n) (b : Byte) : regByte (v ++ b) 0 = b := by
  apply BitVec.eq_of_getLsbD_eq; intro i hi
  simp [regByte, BitVec.getLsbD_append, hi]

/-- Byte k + 1 of an appended byte is byte k of what stands before it. -/
theorem regByte_append_succ {n : Nat} (v : BitVec n) (b : Byte) (k : Nat) :
    regByte (v ++ b) (k + 1) = regByte v k := by
  apply BitVec.eq_of_getLsbD_eq; intro i hi
  simp only [regByte, BitVec.getLsbD_extractLsb', BitVec.getLsbD_append, hi, decide_true, Bool.true_and]
  rw [if_neg (by omega)]; congr 1; omega

/-- A 96-bit value is its twelve bytes. -/
theorem eq_of_regByte {v w : BitVec 96} (h : ∀ k, k < 12 → regByte v k = regByte w k) : v = w := by
  apply BitVec.eq_of_getLsbD_eq; intro i hi
  have := congrArg (·.getLsbD (i % 8)) (h (i / 8) (by omega))
  simpa [regByte, Nat.mod_lt, show 8 * (i / 8) + i % 8 = i by omega] using this

/-- Byte k of BE96(n) is n[11-k] (00_scope.md R10). -/
theorem regByte_be96 (n : Nonce) (k : Nat) (h : k < 12) : regByte (be96 n) k = n[11 - k] := by
  have e : be96 n = n[0] ++ n[1] ++ n[2] ++ n[3] ++ n[4] ++ n[5] ++ n[6] ++ n[7] ++ n[8] ++ n[9] ++ n[10] ++ n[11] := rfl
  have : k = 0 ∨ k = 1 ∨ k = 2 ∨ k = 3 ∨ k = 4 ∨ k = 5 ∨ k = 6 ∨ k = 7 ∨ k = 8 ∨ k = 9 ∨ k = 10 ∨ k = 11 := by omega
  have z : ∀ b : Byte, regByte b 0 = b := fun b => by simp [regByte]
  rcases this with h | h | h | h | h | h | h | h | h | h | h | h <;> subst h
  · exact regByte_append_zero _ _
  · exact (regByte_append_succ _ _ _).trans (regByte_append_zero _ _)
  all_goals
    refine (regByte_append_succ _ _ _).trans ((regByte_append_succ _ _ _).trans ?_)
    simp only [regByte_append_succ, regByte_append_zero, z]

/-- A byte of a value, as a number (20_memory.md R60). -/
theorem regByte_toNat {n : Nat} (v : BitVec n) (k : Nat) : (regByte v k).toNat = v.toNat / 2 ^ (8 * k) % 256 := by
  simp [regByte, BitVec.extractLsb'_toNat, Nat.shiftRight_eq_div_pow]

/-- Byte i of BE96inv(N) (00_scope.md R10). -/
theorem be96inv_get (v : BitVec 96) (i : Nat) (h : i < 12) : (be96inv v)[i] = regByte v (11 - i) := by
  simp [be96inv]

/-- LE64 as a number (00_scope.md R10). -/
theorem le64At_toNat (b : Block) (o : Nat) :
    (le64At b o).toNat = (bufByte b (o + 7)).toNat * 2 ^ 56 + (bufByte b (o + 6)).toNat * 2 ^ 48
      + (bufByte b (o + 5)).toNat * 2 ^ 40 + (bufByte b (o + 4)).toNat * 2 ^ 32 + (bufByte b (o + 3)).toNat * 2 ^ 24
      + (bufByte b (o + 2)).toNat * 2 ^ 16 + (bufByte b (o + 1)).toNat * 2 ^ 8 + (bufByte b o).toNat := by
  refine (toNat_append_byte (n := 56) _ _).trans ?_
  simp only [toNat_append_byte]
  omega

/-- A buffer byte inside the buffer. -/
theorem bufByte_of_lt (b : Block) (i : Nat) (h : i < 64) : bufByte b i = b[i] := by
  simp [bufByte, h]

/-- BE96 as a number, from the most significant byte on (00_scope.md R10). -/
theorem be96_toNat (n : Nonce) :
    (be96 n).toNat = ((((((((((n[0].toNat * 256 + n[1].toNat) * 256 + n[2].toNat) * 256 + n[3].toNat) * 256
      + n[4].toNat) * 256 + n[5].toNat) * 256 + n[6].toNat) * 256 + n[7].toNat) * 256 + n[8].toNat) * 256
      + n[9].toNat) * 256 + n[10].toNat) * 256 + n[11].toNat := by
  refine (toNat_append_byte (n := 88) _ _).trans ?_
  simp only [toNat_append_byte]

/-- BE96 of BE96inv (00_scope.md R10). -/
theorem be96_be96inv (v : BitVec 96) : be96 (be96inv v) = v := by
  apply eq_of_regByte
  intro k hk
  rw [regByte_be96 _ _ hk, be96inv_get]; congr 1; omega

/-- BE96inv of BE96 (00_scope.md R10). -/
theorem be96inv_be96 (n : Nonce) : be96inv (be96 n) = n := by
  apply Vector.ext
  intro i hi
  rw [be96inv_get, regByte_be96 _ _ (by omega)]; congr 1; omega

/-- BE96 is injective. -/
theorem be96_inj {m n : Nonce} (h : be96 m = be96 n) : m = n := by
  rw [← be96inv_be96 m, h, be96inv_be96]

/-- NonceInc as a number (40_engine.md R100). -/
theorem be96_nonceInc (n : Nonce) : (be96 (nonceInc n)).toNat = ((be96 n).toNat + 1) % 2 ^ 96 := by
  rw [nonceInc, be96_be96inv, BitVec.toNat_add]; rfl

/-- The nonce before an increment (10_state.md R26). -/
theorem be96inv_be96_nonceInc_sub (n : Nonce) : be96inv (be96 (nonceInc n) - 1#96) = n := by
  rw [nonceInc, be96_be96inv, BitVec.add_sub_cancel, be96inv_be96]

/-- The counter wraps to 0 exactly from 2^32 - 1 (40_engine.md R102). -/
theorem ctr_wraps (c : Word32) : c + 1#32 = 0#32 ↔ c.toNat = 2 ^ 32 - 1 := by
  have hc := c.isLt
  rw [← BitVec.toNat_inj, BitVec.toNat_add]
  simp
  omega

end Sys2Proof.Machine
end

