-- ==== Sys2Proof/Laws/State.lean ====
section
/-! SUPPORT. One lemma per field per update: what each named update of the state, and of a context, leaves in each field. -/

namespace Sys2Proof.Machine

/-! ### `setCtx` -/

@[simp] theorem State.setCtx_ctxs (s : State) (c : CtxIx) (x : Ctx) : (s.setCtx c x).ctxs = s.ctxs.set c.toNat x := rfl

@[simp] theorem State.setCtx_cmd (s : State) (c : CtxIx) (x : Ctx) : (s.setCtx c x).cmd = s.cmd := rfl

@[simp] theorem State.setCtx_ovr (s : State) (c : CtxIx) (x : Ctx) : (s.setCtx c x).ovr = s.ovr := rfl

@[simp] theorem State.setCtx_err (s : State) (c : CtxIx) (x : Ctx) : (s.setCtx c x).err = s.err := rfl

@[simp] theorem State.setCtx_result (s : State) (c : CtxIx) (x : Ctx) : (s.setCtx c x).result = s.result := rfl

@[simp] theorem State.setCtx_opa (s : State) (c : CtxIx) (x : Ctx) : (s.setCtx c x).opa = s.opa := rfl

@[simp] theorem State.setCtx_opb (s : State) (c : CtxIx) (x : Ctx) : (s.setCtx c x).opb = s.opb := rfl

@[simp] theorem State.setCtx_seedLen (s : State) (c : CtxIx) (x : Ctx) : (s.setCtx c x).seedLen = s.seedLen := rfl

@[simp] theorem State.setCtx_seed (s : State) (c : CtxIx) (x : Ctx) : (s.setCtx c x).seed = s.seed := rfl

@[simp] theorem State.setCtx_seed5 (s : State) (c : CtxIx) (x : Ctx) : (s.setCtx c x).seed5 = s.seed5 := rfl

@[simp] theorem State.setCtx_alphaLen (s : State) (c : CtxIx) (x : Ctx) : (s.setCtx c x).alphaLen = s.alphaLen := rfl

@[simp] theorem State.setCtx_alpha (s : State) (c : CtxIx) (x : Ctx) : (s.setCtx c x).alpha = s.alpha := rfl

@[simp] theorem State.setCtx_ctxSel (s : State) (c : CtxIx) (x : Ctx) : (s.setCtx c x).ctxSel = s.ctxSel := rfl

@[simp] theorem State.setCtx_phase (s : State) (c : CtxIx) (x : Ctx) : (s.setCtx c x).phase = s.phase := rfl

@[simp] theorem State.setCtx_work (s : State) (c : CtxIx) (x : Ctx) : (s.setCtx c x).work = s.work := rfl

@[simp] theorem State.setCtx_ksAnswer (s : State) (c : CtxIx) (x : Ctx) : (s.setCtx c x).ksAnswer = s.ksAnswer := rfl

@[simp] theorem State.setCtx_entropyAnswer (s : State) (c : CtxIx) (x : Ctx) : (s.setCtx c x).entropyAnswer = s.entropyAnswer := rfl

@[simp] theorem State.setCtx_reqs (s : State) (c : CtxIx) (x : Ctx) : (s.setCtx c x).reqs = s.reqs := rfl

@[simp] theorem State.setCtx_turns (s : State) (c : CtxIx) (x : Ctx) : (s.setCtx c x).turns = s.turns := rfl

@[simp] theorem State.setCtx_reply (s : State) (c : CtxIx) (x : Ctx) : (s.setCtx c x).reply = s.reply := rfl

/-! ### `issue` -/

@[simp] theorem issue_ctxs (w : Word32) (s : State) : (issue w s).ctxs = s.ctxs := rfl

@[simp] theorem issue_cmd (w : Word32) (s : State) : (issue w s).cmd = w := rfl

@[simp] theorem issue_ovr (w : Word32) (s : State) : (issue w s).ovr = s.ovr := rfl

@[simp] theorem issue_err (w : Word32) (s : State) : (issue w s).err = s.err := rfl

@[simp] theorem issue_result (w : Word32) (s : State) : (issue w s).result = s.result := rfl

@[simp] theorem issue_opa (w : Word32) (s : State) : (issue w s).opa = s.opa := rfl

@[simp] theorem issue_opb (w : Word32) (s : State) : (issue w s).opb = s.opb := rfl

@[simp] theorem issue_seedLen (w : Word32) (s : State) : (issue w s).seedLen = s.seedLen := rfl

@[simp] theorem issue_seed (w : Word32) (s : State) : (issue w s).seed = s.seed := rfl

@[simp] theorem issue_seed5 (w : Word32) (s : State) : (issue w s).seed5 = s.seed5 := rfl

@[simp] theorem issue_alphaLen (w : Word32) (s : State) : (issue w s).alphaLen = s.alphaLen := rfl

@[simp] theorem issue_alpha (w : Word32) (s : State) : (issue w s).alpha = s.alpha := rfl

@[simp] theorem issue_ctxSel (w : Word32) (s : State) : (issue w s).ctxSel = s.ctxSel := rfl

@[simp] theorem issue_phase (w : Word32) (s : State) : (issue w s).phase = .exec := rfl

@[simp] theorem issue_work (w : Word32) (s : State) : (issue w s).work = none := rfl

@[simp] theorem issue_ksAnswer (w : Word32) (s : State) : (issue w s).ksAnswer = none := rfl

@[simp] theorem issue_entropyAnswer (w : Word32) (s : State) : (issue w s).entropyAnswer = none := rfl

@[simp] theorem issue_reqs (w : Word32) (s : State) : (issue w s).reqs = s.reqs := rfl

@[simp] theorem issue_turns (w : Word32) (s : State) : (issue w s).turns = s.turns := rfl

@[simp] theorem issue_reply (w : Word32) (s : State) : (issue w s).reply = s.reply := rfl

/-! ### `complete` -/

@[simp] theorem complete_ctxs (k : BitVec 8) (v : Option Word) (s : State) : (complete k v s).ctxs = s.ctxs := rfl

@[simp] theorem complete_cmd (k : BitVec 8) (v : Option Word) (s : State) : (complete k v s).cmd = s.cmd := rfl

@[simp] theorem complete_ovr (k : BitVec 8) (v : Option Word) (s : State) : (complete k v s).ovr = s.ovr := rfl

@[simp] theorem complete_err (k : BitVec 8) (v : Option Word) (s : State) : (complete k v s).err = k := rfl

@[simp] theorem complete_result (k : BitVec 8) (v : Option Word) (s : State) : (complete k v s).result = if k = 0#8 then v.getD s.result else s.result := rfl

@[simp] theorem complete_opa (k : BitVec 8) (v : Option Word) (s : State) : (complete k v s).opa = s.opa := rfl

@[simp] theorem complete_opb (k : BitVec 8) (v : Option Word) (s : State) : (complete k v s).opb = s.opb := rfl

@[simp] theorem complete_seedLen (k : BitVec 8) (v : Option Word) (s : State) : (complete k v s).seedLen = s.seedLen := rfl

@[simp] theorem complete_seed (k : BitVec 8) (v : Option Word) (s : State) : (complete k v s).seed = s.seed := rfl

@[simp] theorem complete_seed5 (k : BitVec 8) (v : Option Word) (s : State) : (complete k v s).seed5 = s.seed5 := rfl

@[simp] theorem complete_alphaLen (k : BitVec 8) (v : Option Word) (s : State) : (complete k v s).alphaLen = s.alphaLen := rfl

@[simp] theorem complete_alpha (k : BitVec 8) (v : Option Word) (s : State) : (complete k v s).alpha = s.alpha := rfl

@[simp] theorem complete_ctxSel (k : BitVec 8) (v : Option Word) (s : State) : (complete k v s).ctxSel = s.ctxSel := rfl

@[simp] theorem complete_phase (k : BitVec 8) (v : Option Word) (s : State) : (complete k v s).phase = .idle := rfl

@[simp] theorem complete_work (k : BitVec 8) (v : Option Word) (s : State) : (complete k v s).work = none := rfl

@[simp] theorem complete_ksAnswer (k : BitVec 8) (v : Option Word) (s : State) : (complete k v s).ksAnswer = none := rfl

@[simp] theorem complete_entropyAnswer (k : BitVec 8) (v : Option Word) (s : State) : (complete k v s).entropyAnswer = none := rfl

@[simp] theorem complete_reqs (k : BitVec 8) (v : Option Word) (s : State) : (complete k v s).reqs = s.reqs := rfl

@[simp] theorem complete_turns (k : BitVec 8) (v : Option Word) (s : State) : (complete k v s).turns = s.turns := rfl

@[simp] theorem complete_reply (k : BitVec 8) (v : Option Word) (s : State) : (complete k v s).reply = s.reply := rfl

/-! ### `endedWith` -/

@[simp] theorem State.endedWith_ctxs (s : State) (k : BitVec 8) : (s.endedWith k).ctxs = s.ctxs := rfl

@[simp] theorem State.endedWith_cmd (s : State) (k : BitVec 8) : (s.endedWith k).cmd = s.cmd := rfl

@[simp] theorem State.endedWith_ovr (s : State) (k : BitVec 8) : (s.endedWith k).ovr = s.ovr := rfl

@[simp] theorem State.endedWith_err (s : State) (k : BitVec 8) : (s.endedWith k).err = k := rfl

@[simp] theorem State.endedWith_result (s : State) (k : BitVec 8) : (s.endedWith k).result = s.result := rfl

@[simp] theorem State.endedWith_opa (s : State) (k : BitVec 8) : (s.endedWith k).opa = s.opa := rfl

@[simp] theorem State.endedWith_opb (s : State) (k : BitVec 8) : (s.endedWith k).opb = s.opb := rfl

@[simp] theorem State.endedWith_seedLen (s : State) (k : BitVec 8) : (s.endedWith k).seedLen = s.seedLen := rfl

@[simp] theorem State.endedWith_seed (s : State) (k : BitVec 8) : (s.endedWith k).seed = s.seed := rfl

@[simp] theorem State.endedWith_seed5 (s : State) (k : BitVec 8) : (s.endedWith k).seed5 = s.seed5 := rfl

@[simp] theorem State.endedWith_alphaLen (s : State) (k : BitVec 8) : (s.endedWith k).alphaLen = s.alphaLen := rfl

@[simp] theorem State.endedWith_alpha (s : State) (k : BitVec 8) : (s.endedWith k).alpha = s.alpha := rfl

@[simp] theorem State.endedWith_ctxSel (s : State) (k : BitVec 8) : (s.endedWith k).ctxSel = s.ctxSel := rfl

@[simp] theorem State.endedWith_phase (s : State) (k : BitVec 8) : (s.endedWith k).phase = .idle := rfl

@[simp] theorem State.endedWith_work (s : State) (k : BitVec 8) : (s.endedWith k).work = none := rfl

@[simp] theorem State.endedWith_ksAnswer (s : State) (k : BitVec 8) : (s.endedWith k).ksAnswer = none := rfl

@[simp] theorem State.endedWith_entropyAnswer (s : State) (k : BitVec 8) : (s.endedWith k).entropyAnswer = none := rfl

@[simp] theorem State.endedWith_reqs (s : State) (k : BitVec 8) : (s.endedWith k).reqs = s.reqs := rfl

@[simp] theorem State.endedWith_turns (s : State) (k : BitVec 8) : (s.endedWith k).turns = s.turns := rfl

@[simp] theorem State.endedWith_reply (s : State) (k : BitVec 8) : (s.endedWith k).reply = s.reply := rfl

/-! ### `endedWriting` -/

@[simp] theorem State.endedWriting_ctxs (s : State) (c : CtxIx) (x : Ctx) : (s.endedWriting c x).ctxs = s.ctxs.set c.toNat x := rfl

@[simp] theorem State.endedWriting_cmd (s : State) (c : CtxIx) (x : Ctx) : (s.endedWriting c x).cmd = s.cmd := rfl

@[simp] theorem State.endedWriting_ovr (s : State) (c : CtxIx) (x : Ctx) : (s.endedWriting c x).ovr = s.ovr := rfl

@[simp] theorem State.endedWriting_err (s : State) (c : CtxIx) (x : Ctx) : (s.endedWriting c x).err = 0#8 := rfl

@[simp] theorem State.endedWriting_result (s : State) (c : CtxIx) (x : Ctx) : (s.endedWriting c x).result = s.result := rfl

@[simp] theorem State.endedWriting_opa (s : State) (c : CtxIx) (x : Ctx) : (s.endedWriting c x).opa = s.opa := rfl

@[simp] theorem State.endedWriting_opb (s : State) (c : CtxIx) (x : Ctx) : (s.endedWriting c x).opb = s.opb := rfl

@[simp] theorem State.endedWriting_seedLen (s : State) (c : CtxIx) (x : Ctx) : (s.endedWriting c x).seedLen = s.seedLen := rfl

@[simp] theorem State.endedWriting_seed (s : State) (c : CtxIx) (x : Ctx) : (s.endedWriting c x).seed = s.seed := rfl

@[simp] theorem State.endedWriting_seed5 (s : State) (c : CtxIx) (x : Ctx) : (s.endedWriting c x).seed5 = s.seed5 := rfl

@[simp] theorem State.endedWriting_alphaLen (s : State) (c : CtxIx) (x : Ctx) : (s.endedWriting c x).alphaLen = s.alphaLen := rfl

@[simp] theorem State.endedWriting_alpha (s : State) (c : CtxIx) (x : Ctx) : (s.endedWriting c x).alpha = s.alpha := rfl

@[simp] theorem State.endedWriting_ctxSel (s : State) (c : CtxIx) (x : Ctx) : (s.endedWriting c x).ctxSel = s.ctxSel := rfl

@[simp] theorem State.endedWriting_phase (s : State) (c : CtxIx) (x : Ctx) : (s.endedWriting c x).phase = .idle := rfl

@[simp] theorem State.endedWriting_work (s : State) (c : CtxIx) (x : Ctx) : (s.endedWriting c x).work = none := rfl

@[simp] theorem State.endedWriting_ksAnswer (s : State) (c : CtxIx) (x : Ctx) : (s.endedWriting c x).ksAnswer = none := rfl

@[simp] theorem State.endedWriting_entropyAnswer (s : State) (c : CtxIx) (x : Ctx) : (s.endedWriting c x).entropyAnswer = none := rfl

@[simp] theorem State.endedWriting_reqs (s : State) (c : CtxIx) (x : Ctx) : (s.endedWriting c x).reqs = s.reqs := rfl

@[simp] theorem State.endedWriting_turns (s : State) (c : CtxIx) (x : Ctx) : (s.endedWriting c x).turns = s.turns := rfl

@[simp] theorem State.endedWriting_reply (s : State) (c : CtxIx) (x : Ctx) : (s.endedWriting c x).reply = s.reply := rfl

/-! ### `endedResult` -/

@[simp] theorem State.endedResult_ctxs (s : State) (c : CtxIx) (x : Ctx) (v : Word) : (s.endedResult c x v).ctxs = s.ctxs.set c.toNat x := rfl

@[simp] theorem State.endedResult_cmd (s : State) (c : CtxIx) (x : Ctx) (v : Word) : (s.endedResult c x v).cmd = s.cmd := rfl

@[simp] theorem State.endedResult_ovr (s : State) (c : CtxIx) (x : Ctx) (v : Word) : (s.endedResult c x v).ovr = s.ovr := rfl

@[simp] theorem State.endedResult_err (s : State) (c : CtxIx) (x : Ctx) (v : Word) : (s.endedResult c x v).err = 0#8 := rfl

@[simp] theorem State.endedResult_result (s : State) (c : CtxIx) (x : Ctx) (v : Word) : (s.endedResult c x v).result = v := rfl

@[simp] theorem State.endedResult_opa (s : State) (c : CtxIx) (x : Ctx) (v : Word) : (s.endedResult c x v).opa = s.opa := rfl

@[simp] theorem State.endedResult_opb (s : State) (c : CtxIx) (x : Ctx) (v : Word) : (s.endedResult c x v).opb = s.opb := rfl

@[simp] theorem State.endedResult_seedLen (s : State) (c : CtxIx) (x : Ctx) (v : Word) : (s.endedResult c x v).seedLen = s.seedLen := rfl

@[simp] theorem State.endedResult_seed (s : State) (c : CtxIx) (x : Ctx) (v : Word) : (s.endedResult c x v).seed = s.seed := rfl

@[simp] theorem State.endedResult_seed5 (s : State) (c : CtxIx) (x : Ctx) (v : Word) : (s.endedResult c x v).seed5 = s.seed5 := rfl

@[simp] theorem State.endedResult_alphaLen (s : State) (c : CtxIx) (x : Ctx) (v : Word) : (s.endedResult c x v).alphaLen = s.alphaLen := rfl

@[simp] theorem State.endedResult_alpha (s : State) (c : CtxIx) (x : Ctx) (v : Word) : (s.endedResult c x v).alpha = s.alpha := rfl

@[simp] theorem State.endedResult_ctxSel (s : State) (c : CtxIx) (x : Ctx) (v : Word) : (s.endedResult c x v).ctxSel = s.ctxSel := rfl

@[simp] theorem State.endedResult_phase (s : State) (c : CtxIx) (x : Ctx) (v : Word) : (s.endedResult c x v).phase = .idle := rfl

@[simp] theorem State.endedResult_work (s : State) (c : CtxIx) (x : Ctx) (v : Word) : (s.endedResult c x v).work = none := rfl

@[simp] theorem State.endedResult_ksAnswer (s : State) (c : CtxIx) (x : Ctx) (v : Word) : (s.endedResult c x v).ksAnswer = none := rfl

@[simp] theorem State.endedResult_entropyAnswer (s : State) (c : CtxIx) (x : Ctx) (v : Word) : (s.endedResult c x v).entropyAnswer = none := rfl

@[simp] theorem State.endedResult_reqs (s : State) (c : CtxIx) (x : Ctx) (v : Word) : (s.endedResult c x v).reqs = s.reqs := rfl

@[simp] theorem State.endedResult_turns (s : State) (c : CtxIx) (x : Ctx) (v : Word) : (s.endedResult c x v).turns = s.turns := rfl

@[simp] theorem State.endedResult_reply (s : State) (c : CtxIx) (x : Ctx) (v : Word) : (s.endedResult c x v).reply = s.reply := rfl

/-! ### `seedCtx` -/

@[simp] theorem seedCtx_key (x : Ctx) (e : Seed) : (seedCtx x e).key = keyOfSeed e := by
  simp only [seedCtx]

@[simp] theorem seedCtx_nonce (x : Ctx) (e : Seed) : (seedCtx x e).nonce = nonceOfSeed e := by
  simp only [seedCtx]

@[simp] theorem seedCtx_ctr (x : Ctx) (e : Seed) : (seedCtx x e).ctr = 0#32 := by
  simp only [seedCtx]

@[simp] theorem seedCtx_buf (x : Ctx) (e : Seed) : (seedCtx x e).buf = x.buf := by
  simp only [seedCtx]

@[simp] theorem seedCtx_off (x : Ctx) (e : Seed) : (seedCtx x e).off = 64 := by
  simp only [seedCtx]

@[simp] theorem seedCtx_seeded (x : Ctx) (e : Seed) : (seedCtx x e).seeded = true := by
  simp only [seedCtx]

@[simp] theorem seedCtx_failed (x : Ctx) (e : Seed) : (seedCtx x e).failed = x.failed := by
  simp only [seedCtx]

/-! ### `jumpCtx` -/

@[simp] theorem jumpCtx_key (x : Ctx) : (jumpCtx x).key = x.key := by
  simp only [jumpCtx]

@[simp] theorem jumpCtx_nonce (x : Ctx) : (jumpCtx x).nonce = nonceInc x.nonce := by
  simp only [jumpCtx]

@[simp] theorem jumpCtx_ctr (x : Ctx) : (jumpCtx x).ctr = 0#32 := by
  simp only [jumpCtx]

@[simp] theorem jumpCtx_buf (x : Ctx) : (jumpCtx x).buf = x.buf := by
  simp only [jumpCtx]

@[simp] theorem jumpCtx_off (x : Ctx) : (jumpCtx x).off = 64 := by
  simp only [jumpCtx]

@[simp] theorem jumpCtx_seeded (x : Ctx) : (jumpCtx x).seeded = x.seeded := by
  simp only [jumpCtx]

@[simp] theorem jumpCtx_failed (x : Ctx) : (jumpCtx x).failed = x.failed := by
  simp only [jumpCtx]

/-! ### `refillCtx` -/

@[simp] theorem refillCtx_key (x : Ctx) : (refillCtx x).key = x.key := by
  simp only [refillCtx]

@[simp] theorem refillCtx_nonce (x : Ctx) : (refillCtx x).nonce = if x.ctr + 1#32 = 0#32 then nonceInc x.nonce else x.nonce := by
  simp only [refillCtx]

@[simp] theorem refillCtx_ctr (x : Ctx) : (refillCtx x).ctr = x.ctr + 1#32 := by
  simp only [refillCtx]

@[simp] theorem refillCtx_buf (x : Ctx) : (refillCtx x).buf = Config.keystreamBlock x.key x.nonce x.ctr := by
  simp only [refillCtx]

@[simp] theorem refillCtx_off (x : Ctx) : (refillCtx x).off = 0 := by
  simp only [refillCtx]

@[simp] theorem refillCtx_seeded (x : Ctx) : (refillCtx x).seeded = x.seeded := by
  simp only [refillCtx]

@[simp] theorem refillCtx_failed (x : Ctx) : (refillCtx x).failed = x.failed := by
  simp only [refillCtx]

/-! ### `advance` -/

@[simp] theorem advance_key (x : Ctx) : (advance x).key = x.key := by
  simp only [advance]

@[simp] theorem advance_nonce (x : Ctx) : (advance x).nonce = x.nonce := by
  simp only [advance]

@[simp] theorem advance_ctr (x : Ctx) : (advance x).ctr = x.ctr := by
  simp only [advance]

@[simp] theorem advance_buf (x : Ctx) : (advance x).buf = x.buf := by
  simp only [advance]

@[simp] theorem advance_off (x : Ctx) : (advance x).off = Fin.ofNat 65 (x.off.val + 8) := by
  simp only [advance]

@[simp] theorem advance_seeded (x : Ctx) : (advance x).seeded = x.seeded := by
  simp only [advance]

@[simp] theorem advance_failed (x : Ctx) : (advance x).failed = x.failed := by
  simp only [advance]

end Sys2Proof.Machine
end

