-- ==== Sys2Proof/Laws/Draws.lean ====
section
/-! SUPPORT. What the draws can do: one lemma for a raw draw, for the rejection loop and for `Bounded`; how many draws one
answer allows; and `Bounded` as the first accepted draw (40_engine.md R102, R104; 41_sampler.md R141). -/

namespace Sys2Proof.Machine

/-- What NextRaw64 can do (40_engine.md R102, R104). -/
theorem nextRaw64_cases (x : Ctx) (ks : Option (BitVec 8)) :
    (x.off.val ≤ 56 ∧ nextRaw64 x ks = takeDraw x ks) ∨
    (56 < x.off.val ∧ ks = some 0#8 ∧ nextRaw64 x ks = takeDraw (refillCtx x) none) ∨
    (56 < x.off.val ∧ ks = none ∧ nextRaw64 x ks = .waitKs x) ∨
    (56 < x.off.val ∧ (∃ st, ks = some st ∧ st ≠ 0#8) ∧ nextRaw64 x ks = .primFail { x with failed := true }) := by
  unfold nextRaw64
  by_cases h : 56 < x.off.val
  · rw [if_pos h]
    cases ks with
    | none => exact .inr (.inr (.inl ⟨h, rfl, rfl⟩))
    | some st =>
      by_cases hs : st = 0#8
      · subst hs; exact .inr (.inl ⟨h, rfl, by simp [refillAndDraw]⟩)
      · exact .inr (.inr (.inr ⟨h, ⟨st, rfl, hs⟩, by simp [refillAndDraw, hs]⟩))
  · rw [if_neg h]; exact .inl ⟨by omega, rfl⟩

/-- `P` holds of the context a draw has left and of the answer still latched there; of a failed Refill it holds before
FAILED was set, with the failing answer. -/
def DrawLeaves {α : Type} (P : Ctx → Option (BitVec 8) → Prop) : Draw α → Prop
  | .done _ z k => P z k
  | .waitKs z => P z none
  | .primFail z => ∃ y st, st ≠ 0#8 ∧ P y (some st) ∧ z = { y with failed := true }
  | .more z k => P z k

/-- Mapping the value leaves the context. -/
theorem drawLeaves_map {α β : Type} (P : Ctx → Option (BitVec 8) → Prop) (f : α → β) (d : Draw α) (h : DrawLeaves P d) :
    DrawLeaves P (mapDraw f d) := by cases d <;> exact h

/-- A raw draw keeps a property of context and answer that the cursor's advance keeps, and that a successful Refill
keeps, which uses the answer up (40_engine.md R102, R103). -/
theorem nextRaw64_leaves {P : Ctx → Option (BitVec 8) → Prop} (href : ∀ x, P x (some 0#8) → P (refillCtx x) none)
    (hadv : ∀ x k, x.off.val ≤ 56 → P x k → P (advance x) k) (x : Ctx) (ks : Option (BitVec 8)) (h : P x ks) :
    DrawLeaves P (nextRaw64 x ks) := by
  rcases nextRaw64_cases x ks with ⟨ho, e⟩ | ⟨_, rfl, e⟩ | ⟨_, rfl, e⟩ | ⟨_, ⟨st, rfl, hs⟩, e⟩ <;> rw [e]
  · exact hadv x ks ho h
  · exact hadv _ none (by simp [refillCtx]) (href x h)
  · exact h
  · exact ⟨x, st, hs, h, rfl⟩

/-- The rejection loop keeps what its draws keep. -/
theorem rejectLoop_leaves {P : Ctx → Option (BitVec 8) → Prop} (href : ∀ x, P x (some 0#8) → P (refillCtx x) none)
    (hadv : ∀ x k, x.off.val ≤ 56 → P x k → P (advance x) k) (w : Width) (n f : Nat) (x : Ctx)
    (ks : Option (BitVec 8)) (h : P x ks) : DrawLeaves P (rejectLoop w n f x ks) := by
  induction f generalizing x ks with
  | zero => exact h
  | succ f ih =>
    have hl := nextRaw64_leaves href hadv x ks h
    unfold rejectLoop drawBits
    cases e : nextRaw64 x ks with
    | done r z k =>
      rw [e] at hl
      dsimp only [mapDraw]
      split
      · exact hl
      · exact ih z k hl
    | waitKs z => rw [e] at hl; exact hl
    | primFail z => rw [e] at hl; exact hl
    | more z k => rw [e] at hl; exact hl

/-- `Bounded` keeps what its draws keep. -/
theorem bounded_leaves {P : Ctx → Option (BitVec 8) → Prop} (href : ∀ x, P x (some 0#8) → P (refillCtx x) none)
    (hadv : ∀ x k, x.off.val ≤ 56 → P x k → P (advance x) k) (w : Width) (m : Nat) (x : Ctx)
    (ks : Option (BitVec 8)) (h : P x ks) : DrawLeaves P (bounded w m x ks) := by
  have hd := drawLeaves_map P (lowBits w) _ (nextRaw64_leaves href hadv x ks h)
  unfold bounded
  split
  · exact hd
  split
  · exact drawLeaves_map _ _ _ hd
  · exact rejectLoop_leaves href hadv _ _ _ _ _ h

/-- How many raw draws a context can still serve with one answer latched. -/
def budget (x : Ctx) (ks : Option (BitVec 8)) : Nat := (64 - x.off.val) / 8 + if ks = some 0#8 then 8 else 0

/-- At most sixteen: eight of the buffer and eight of one block. -/
theorem budget_le (x : Ctx) (ks : Option (BitVec 8)) : budget x ks ≤ 16 := by
  unfold budget; have := x.off.isLt; split <;> omega

/-- The cursor after a draw (40_engine.md R104). -/
theorem advance_off_val (x : Ctx) (h : x.off.val ≤ 56) : (advance x).off.val = x.off.val + 8 := by
  simp [advance]; omega

/-- A raw draw uses up one of them. -/
theorem nextRaw64_done_budget {x z : Ctx} {ks k : Option (BitVec 8)} {r : Word}
    (h : nextRaw64 x ks = .done r z k) : budget x ks = budget z k + 1 := by
  rcases nextRaw64_cases x ks with ⟨ho, e⟩ | ⟨ho, hk, e⟩ | ⟨_, _, e⟩ | ⟨_, _, e⟩ <;> rw [e] at h
  · cases h; unfold budget; rw [advance_off_val x ho]; omega
  · cases h; unfold budget; rw [advance_off_val _ (by simp [refillCtx]), hk]; simp [refillCtx]; omega
  · cases h
  · cases h

/-- A raw draw never leaves its loop unfinished: it has none. -/
theorem nextRaw64_not_more (x z : Ctx) (ks k : Option (BitVec 8)) : nextRaw64 x ks ≠ .more z k := by
  rcases nextRaw64_cases x ks with ⟨ho, e⟩ | ⟨ho, hk, e⟩ | ⟨_, _, e⟩ | ⟨_, _, e⟩ <;> rw [e] <;> simp [takeDraw]

/-- The loop's fuel never runs out when it exceeds the draws there can be. -/
theorem rejectLoop_not_more (w : Width) (n f : Nat) (x z : Ctx) (ks k : Option (BitVec 8)) (h : budget x ks < f) :
    rejectLoop w n f x ks ≠ .more z k := by
  induction f generalizing x ks with
  | zero => omega
  | succ f ih =>
    unfold rejectLoop drawBits
    cases e : nextRaw64 x ks with
    | done r y k' =>
      have := nextRaw64_done_budget e
      simp only [mapDraw]
      split
      · simp
      · exact ih _ _ (by omega)
    | waitKs y => simp [mapDraw]
    | primFail y => simp [mapDraw]
    | more y k' => exact absurd e (nextRaw64_not_more _ _ _ _)

/-- `Bounded` never runs out of fuel (70_reset_and_hazards.md R232). -/
theorem bounded_not_more (w : Width) (m : Nat) (x z : Ctx) (ks k : Option (BitVec 8)) :
    bounded w m x ks ≠ .more z k := by
  have hd : ∀ z k, drawBits w x ks ≠ .more z k := by
    intro z k; unfold drawBits
    cases e : nextRaw64 x ks <;> simp [mapDraw]
    exact absurd e (nextRaw64_not_more _ _ _ _)
  unfold bounded
  split
  · exact hd z k
  split
  · cases e : drawBits w x ks <;> simp [mapDraw]
    exact absurd e (hd _ _)
  · exact rejectLoop_not_more _ _ _ _ _ _ _ (by have := budget_le x ks; unfold loopFuel; omega)

/-- Draws are served one after the other: the j-th exists only within the budget. -/
theorem nthDraw_done_lt {j : Nat} {x z : Ctx} {ks k : Option (BitVec 8)} {r : Word}
    (h : nthDraw j x ks = .done r z k) : j < budget x ks := by
  induction j generalizing x ks with
  | zero => have := nextRaw64_done_budget h; omega
  | succ j ih =>
    unfold nthDraw at h
    split at h
    · rename_i e; have := nextRaw64_done_budget e; have := ih h; omega
    · cases h
    · cases h
    · cases h

/-- Draws that were all served number at most the budget. -/
theorem nthDraw_last_le {j : Nat} {x : Ctx} {ks : Option (BitVec 8)}
    (h : ∀ k, k < j → ∃ r z k', nthDraw k x ks = .done r z k') : j ≤ budget x ks := by
  cases j with
  | zero => omega
  | succ j => obtain ⟨r, z, k', e⟩ := h j (by omega); have := nthDraw_done_lt e; omega

/-- The outcome of the loop, from what its draws are: discarded up to the j-th. -/
theorem rejectLoop_after (w : Width) (n j f : Nat) (x : Ctx) (ks : Option (BitVec 8)) (hf : j < f)
    (h : ∀ k, k < j → ∃ r z k', nthDraw k x ks = .done r z k' ∧ rejectLimit w n ≤ lowBits w r) :
    rejectLoop w n f x ks = (match nthDraw j x ks with
      | .done r z k => if lowBits w r < rejectLimit w n then .done (lowBits w r % n) z k
                       else rejectLoop w n (f - j - 1) z k
      | .waitKs z => .waitKs z
      | .primFail z => .primFail z
      | .more z k => .more z k) := by
  induction j generalizing f x ks with
  | zero =>
    obtain ⟨f, rfl⟩ : ∃ g, f = g + 1 := ⟨f - 1, by omega⟩
    simp only [rejectLoop, drawBits, nthDraw]
    cases nextRaw64 x ks <;> simp [mapDraw]
  | succ j ih =>
    obtain ⟨f, rfl⟩ : ∃ g, f = g + 1 := ⟨f - 1, by omega⟩
    obtain ⟨r, z, k', e, hr⟩ := h 0 (by omega)
    rw [nthDraw] at e
    have := ih f z k' (by omega) (by
      intro k hk
      have := h (k + 1) (by omega)
      rwa [nthDraw, e] at this)
    rw [rejectLoop, drawBits, e]
    simp only [mapDraw]
    rw [if_neg (by omega), this, nthDraw, e]
    simp only
    have : f + 1 - (j + 1) - 1 = f - j - 1 := by omega
    rw [this]

/-- The model's test for a power of two (00_scope.md R9). -/
theorem isPow2_iff (n : Nat) (b : Nat) (h0 : 0 < n) (hb : n < 2 ^ b) :
    isPow2 n = true ↔ ∃ k, k < b ∧ n = 2 ^ k := by
  simp only [isPow2, decide_eq_true_eq]
  constructor
  · intro h
    refine ⟨n.log2, ?_, h.symm⟩
    exact (Nat.log2_lt (by omega)).2 hb
  · rintro ⟨k, _, rfl⟩; simp

/-- The rejection limit as a multiple of n (41_sampler.md R144). -/
theorem rejectLimit_eq (w : Width) (n : Nat) : rejectLimit w n = 2 ^ bitsOf w / n * n := by
  have := Nat.div_add_mod (2 ^ bitsOf w) n
  unfold rejectLimit; rw [Nat.mul_comm]; omega

/-- A w-bit draw is below 2^w (41_sampler.md R140). -/
theorem lowBits_lt (w : Width) (r : Word) : lowBits w r < 2 ^ bitsOf w := Nat.mod_lt _ (Nat.two_pow_pos _)

/-- `Bounded` discards draws and ends with the first accepted one (41_sampler.md R141). -/
theorem bounded_after (w : Width) (m j : Nat) (x : Ctx) (ks : Option (BitVec 8)) (hm : m < 2 ^ bitsOf w)
    (h : ∀ k, k < j → ∃ r z k', nthDraw k x ks = .done r z k' ∧ acceptDraw w m (lowBits w r) = none) :
    (∀ r z k v, nthDraw j x ks = .done r z k → acceptDraw w m (lowBits w r) = some v → bounded w m x ks = .done v z k)
    ∧ (∀ z, nthDraw j x ks = .waitKs z → bounded w m x ks = .waitKs z)
    ∧ (∀ z, nthDraw j x ks = .primFail z → bounded w m x ks = .primFail z) := by
  have hj : j ≤ budget x ks := nthDraw_last_le (fun k hk => by
    obtain ⟨r, z, k', e, _⟩ := h k hk; exact ⟨r, z, k', e⟩)
  have hb := budget_le x ks
  unfold bounded
  by_cases h1 : m = 2 ^ bitsOf w - 1
  · have hj0 : j = 0 := by
      by_contra hne
      obtain ⟨r, z, k', _, e⟩ := h 0 (by omega)
      simp [acceptDraw, h1] at e
    subst hj0
    simp only [if_pos h1, nthDraw, drawBits]
    refine ⟨?_, ?_, ?_⟩
    · intro r z k v e ha; rw [e]; simp [acceptDraw, h1] at ha; simp [mapDraw, ha]
    · intro z e; rw [e]; rfl
    · intro z e; rw [e]; rfl
  have hpow := isPow2_iff (m + 1) (bitsOf w) (by omega) (by omega)
  rw [if_neg h1]
  by_cases h2 : isPow2 (m + 1) = true
  · have h2' := hpow.1 h2
    have hj0 : j = 0 := by
      by_contra hne
      obtain ⟨r, z, k', _, e⟩ := h 0 (by omega)
      simp [acceptDraw, h1, h2'] at e
    subst hj0
    simp only [if_pos h2, nthDraw, drawBits]
    refine ⟨?_, ?_, ?_⟩
    · intro r z k v e ha; rw [e]; simp [acceptDraw, h1, h2'] at ha; simp [mapDraw, ha]
    · intro z e; rw [e]; rfl
    · intro z e; rw [e]; rfl
  · have h2' := mt hpow.2 h2
    rw [if_neg h2]
    have hacc : ∀ v, acceptDraw w m v = if v < rejectLimit w (m + 1) then some (v % (m + 1)) else none := by
      intro v; simp only [acceptDraw, if_neg h1, if_neg h2', rejectLimit_eq]
    rw [rejectLoop_after w (m + 1) j loopFuel x ks (by unfold loopFuel; omega) (by
      intro k hk
      obtain ⟨r, z, k', e, ha⟩ := h k hk
      refine ⟨r, z, k', e, ?_⟩
      rw [hacc] at ha
      by_contra hlt
      rw [if_pos (by omega)] at ha; cases ha)]
    refine ⟨?_, ?_, ?_⟩
    · intro r z k v e ha
      rw [e]; rw [hacc] at ha
      by_cases hl : lowBits w r < rejectLimit w (m + 1)
      · rw [if_pos hl] at ha; cases ha; simp [hl]
      · rw [if_neg hl] at ha; cases ha
    · intro z e; rw [e]
    · intro z e; rw [e]

/-- The cursor's advance, written out (40_engine.md R104). -/
theorem advance_eq (x : Ctx) (h : x.off.val ≤ 56) : advance x = { x with off := ⟨x.off.val + 8, by omega⟩ } := by
  unfold advance; congr 1; apply Fin.ext; simp; omega

/-- A raw draw of a Ready context (10_state.md R28). -/
theorem nextRaw64_ready (x : Ctx) (ks : Option (BitVec 8)) (h : x.off.val ≤ 56) : nextRaw64 x ks = takeDraw x ks := by
  rw [nextRaw64, if_neg (by omega)]

/-- A raw draw of an Exhausted context whose Refill succeeds (40_engine.md R102). -/
theorem nextRaw64_refill (x : Ctx) (h : 56 < x.off.val) : nextRaw64 x (some 0#8) = takeDraw (refillCtx x) none := by
  rw [nextRaw64, if_pos h, refillAndDraw, if_pos rfl]

/-- An operand that fits is its own low bits (30_encoding.md R87). -/
theorem lowBits_of_lt {w : Width} {v : Word} (h : v.toNat < 2 ^ bitsOf w) : lowBits w v = v.toNat := Nat.mod_eq_of_lt h

end Sys2Proof.Machine
end

