-- ==== Sys2Proof/Laws/Commands.lean ====
section
/-! SUPPORT. What a command can do, said once: the endings of a command, and one case analysis of `exec` that later proofs
cite instead of unfolding nine meanings. -/

namespace Sys2Proof.Machine

/-- The slot a command names, found (30_encoding.md R83). -/
theorem onContext_of {c : CtxIx} {s : State} {x : Ctx} (h : s.ctxs[c.toNat]? = some x) (k : Ctx → State) :
    onContext c s k = k x := by simp [onContext, h]

/-- CheckDrawable passed (40_engine.md R101). -/
theorem onDrawable_of {c : CtxIx} {s : State} {x : Ctx} (h : s.Drawable c x) (k : Ctx → State) :
    onDrawable c s k = k x := by
  simp [onDrawable, onContext_of h.1, drawableError, h.2.1, h.2.2]

/-- `raise E` writes the code and ends the command (60_exceptions.md R183). -/
theorem raise_eq (e : Err) (s : State) : raise e s = s.endedWith e.code := by
  cases e <;> simp [raise, complete, State.endedWith, Err.code]

/-- A normal end without a value (20_memory.md R63). -/
theorem complete_none (s : State) (c : CtxIx) (x : Ctx) : complete 0#8 none (s.setCtx c x) = s.endedWriting c x := by
  simp [complete, State.setCtx, State.endedWriting]

/-- A normal end with a value (20_memory.md R63). -/
theorem complete_some (s : State) (c : CtxIx) (x : Ctx) (v : Word) :
    complete 0#8 (some v) (s.setCtx c x) = s.endedResult c x v := by
  simp [complete, State.setCtx, State.endedResult]

/-- Every code `raise` writes is a code of the table, and none of them is OK (60_exceptions.md R181). -/
theorem Err.code_range (e : Err) : 1 ≤ e.code.toNat ∧ e.code.toNat ≤ 8 := by cases e <;> decide

/-- Everything a command can do. -/
inductive ExecCase (i : Instr) (s : State) : State → Prop
  /-- an error of class 1 to 4: only the code is written (60_exceptions.md R185) -/
  | error (e : Err) (hp : e ≠ .primitiveFailure) (he : e ≠ .entropyFailure) : ExecCase i s (s.endedWith e.code)
  /-- RESEED_AUTO issues its request (40_engine.md R106) -/
  | request (c : CtxIx) (x : Ctx) (hi : i = .reseedAuto c) (ha : s.entropyAnswer = none)
      (hx : s.ctxs[c.toNat]? = some x) (hf : x.failed = false) :
      ExecCase i s { s with phase := .waitEntropy, reqs := s.reqs + 1 }
  /-- RESEED_AUTO fails (60_exceptions.md R187) -/
  | entropyFail (c : CtxIx) (x : Ctx) (hi : i = .reseedAuto c) (ha : s.entropyAnswer = some .fail)
      (hx : s.ctxs[c.toNat]? = some x) (hf : x.failed = false) :
      ExecCase i s ((s.setCtx c { x with failed := true }).endedWith 7#8)
  /-- CLONE of a slot into itself (40_engine.md R108) -/
  | noop (c : CtxIx) (hi : i = .clone c c) : ExecCase i s (s.endedWith 0#8)
  /-- a command that draws nothing writes its slot: seeded, jumped, or a copy of a slot -/
  | write (x z : Ctx) (hd : i.draws = false) (hx : s.ctxs[i.ctx.toNat]? = some x) (hf : x.failed = false)
      (hz : z.failed = false) (hs : z.seeded = true)
      (how : (((∃ c, i = .reseedAuto c) ∨ ∃ c, i = .reseedSeed c) ∧ ∃ e, z = seedCtx x e) ∨
        ((∃ c, i = .jump c) ∧ x.seeded = true ∧ z = jumpCtx x) ∨ ∃ src xs, i = .clone i.ctx src ∧ s.ctxs[src.toNat]? = some xs ∧ z = xs) :
      ExecCase i s (s.endedWriting i.ctx z)
  /-- a command that draws: its draws keep what the cursor's advance keeps and what a successful Refill, using the answer
  up, keeps -/
  | draw (x : Ctx) (d : Draw Word) (hd : i.draws = true) (hx : s.Drawable i.ctx x) (hm : ∀ z k, d ≠ .more z k)
      (keeps : ∀ P : Ctx → Option (BitVec 8) → Prop, (∀ x, P x (some 0#8) → P (refillCtx x) none) →
        (∀ x k, x.off.val ≤ 56 → P x k → P (advance x) k) → P (s.working x) s.ksAnswer → DrawLeaves P d) :
      ExecCase i s (finishDraw i.ctx d s)

/-- An error of class 1 to 4 is one of the cases. -/
theorem raise_case (i : Instr) (s : State) (e : Err) (hp : e ≠ .primitiveFailure) (he : e ≠ .entropyFailure) :
    ExecCase i s (raise e s) := by rw [raise_eq]; exact .error e hp he

/-- The cases of a command that names a slot. -/
theorem onContext_case {i : Instr} {s : State} {c : CtxIx} {k : Ctx → State}
    (h : ∀ x, s.ctxs[c.toNat]? = some x → ExecCase i s (k x)) : ExecCase i s (onContext c s k) := by
  unfold onContext
  split
  · exact raise_case i s _ (by simp) (by simp)
  · exact h _ ‹_›

/-- The cases of a command that passes CheckDrawable (40_engine.md R101). -/
theorem onDrawable_case {i : Instr} {s : State} {c : CtxIx} {k : Ctx → State}
    (h : ∀ x, s.Drawable c x → ExecCase i s (k x)) : ExecCase i s (onDrawable c s k) := by
  refine onContext_case fun x hx => ?_
  cases hf : x.failed with
  | true => simp only [drawableError, hf, if_true]; exact raise_case i s _ (by simp) (by simp)
  | false =>
    cases hs : x.seeded with
    | true => simp only [drawableError, hf, hs, Bool.false_eq_true, if_false, if_true]; exact h x ⟨hx, hf, hs⟩
    | false => simp only [drawableError, hf, hs, Bool.false_eq_true, if_false]; exact raise_case i s _ (by simp) (by simp)

/-- The cases of a command that makes one raw draw. -/
theorem rawDraw_case {i : Instr} {s : State} {x : Ctx} (f : Word → Word) (hd : i.draws = true)
    (hx : s.Drawable i.ctx x) :
    ExecCase i s (finishDraw i.ctx (mapDraw f (nextRaw64 (s.working x) s.ksAnswer)) s) := by
  refine .draw x _ hd hx (fun z k e => ?_) fun P hr ha hP => drawLeaves_map P f _ (nextRaw64_leaves hr ha _ _ hP)
  cases h : nextRaw64 (s.working x) s.ksAnswer <;> rw [h] at e <;> cases e
  exact nextRaw64_not_more _ _ _ _ h

/-- The cases of a command that samples. -/
theorem bounded_case {i : Instr} {s : State} {x : Ctx} (w : Width) (m : Nat) (f : Nat → Word) (hd : i.draws = true)
    (hx : s.Drawable i.ctx x) :
    ExecCase i s (finishDraw i.ctx (mapDraw f (bounded w m (s.working x) s.ksAnswer)) s) := by
  refine .draw x _ hd hx (fun z k e => ?_) fun P hr ha hP => drawLeaves_map P f _ (bounded_leaves hr ha _ _ _ _ hP)
  cases h : bounded w m (s.working x) s.ksAnswer <;> rw [h] at e <;> cases e
  exact bounded_not_more _ _ _ _ _ _ h

/-- Mapping by the identity. -/
theorem mapDraw_id {α : Type} (d : Draw α) : mapDraw (fun a => a) d = d := by cases d <;> rfl

/-- The cases of a reseed with 44 bytes (40_engine.md R106, R107). -/
theorem seed_case {i : Instr} {s : State} {x : Ctx} (e : Seed)
    (hi : (∃ c, i = .reseedAuto c) ∨ ∃ c, i = .reseedSeed c) (hd : i.draws = false)
    (hx : s.ctxs[i.ctx.toNat]? = some x) (hf : x.failed = false) :
    ExecCase i s (complete 0#8 none (s.setCtx i.ctx (seedCtx x e))) := by
  rw [complete_none]
  exact .write x _ hd hx hf ((seedCtx_failed x e).trans hf) (seedCtx_seeded x e) (.inl ⟨hi, e, rfl⟩)

/-- A command does one of these things. -/
theorem exec_cases {i : Instr} {s t : State} (h : exec i s = .next t) : ExecCase i s t := by
  cases i with
  | nextRaw64 c =>
    cases h
    refine onDrawable_case fun x hx => ?_
    rw [← mapDraw_id (nextRaw64 _ _)]; exact rawDraw_case (i := .nextRaw64 c) _ rfl hx
  | unitFloat c => cases h; exact onDrawable_case fun x hx => rawDraw_case (i := .unitFloat c) _ rfl hx
  | boundedInt w c =>
    cases h; split
    · exact onDrawable_case fun x hx => bounded_case (i := .boundedInt w c) _ _ _ rfl hx
    · exact raise_case _ s _ (by simp) (by simp)
  | rangedInt w c =>
    cases h; split
    · refine onDrawable_case fun x hx => ?_
      split
      · exact raise_case _ s _ (by simp) (by simp)
      · exact bounded_case (i := .rangedInt w c) _ _ _ rfl hx
    · exact raise_case _ s _ (by simp) (by simp)
  | randomChar c =>
    cases h; split
    · exact raise_case _ s _ (by simp) (by simp)
    · refine onDrawable_case fun x hx => ?_
      split
      · exact raise_case _ s _ (by simp) (by simp)
      · exact bounded_case (i := .randomChar c) _ _ _ rfl hx
  | jump c =>
    cases h
    refine onDrawable_case fun x hx => ?_
    rw [complete_none]
    exact .write (i := .jump c) x _ rfl hx.1 hx.2.1 hx.2.1 hx.2.2 (.inr (.inl ⟨⟨c, rfl⟩, hx.2.2, rfl⟩))
  | reseedAuto c =>
    cases h
    refine onContext_case fun x hx => ?_
    split
    · exact raise_case _ s _ (by simp) (by simp)
    have hf : x.failed = false := by simpa using ‹¬x.failed = true›
    split
    · exact .request c x rfl ‹_› hx hf
    · rw [raise_eq]; exact .entropyFail c x rfl ‹_› hx hf
    · exact seed_case (i := .reseedAuto c) _ (.inl ⟨c, rfl⟩) rfl hx hf
  | reseedSeed c =>
    cases h
    refine onContext_case fun x hx => ?_
    split
    · exact raise_case _ s _ (by simp) (by simp)
    have hf : x.failed = false := by simpa using ‹¬x.failed = true›
    split
    · exact raise_case _ s _ (by simp) (by simp)
    · exact seed_case (i := .reseedSeed c) _ (.inr ⟨c, rfl⟩) rfl hx hf
  | clone d src =>
    cases h
    refine onContext_case fun xd hd => onContext_case fun xs hs => ?_
    split
    · exact raise_case _ s _ (by simp) (by simp)
    split
    · exact raise_case _ s _ (by simp) (by simp)
    rename_i h1 h2
    simp only [Bool.or_eq_true, not_or, Bool.not_eq_true, Bool.not_eq_eq_eq_not] at h1 h2
    split
    · rename_i h3; subst h3; exact .noop d rfl
    · rw [complete_none]
      refine .write (i := .clone d src) xd _ rfl hd h1.1 h1.1 rfl (.inr (.inr ⟨src, xs, rfl, hs, ?_⟩))
      cases xs; simp_all

/-- Every command answers a next state (60_exceptions.md R180). -/
theorem exec_next (i : Instr) (s : State) : ∃ t, exec i s = .next t := by cases i <;> exact ⟨_, rfl⟩

/-- A command that draws, under valid operands on a slot that passes CheckDrawable: it ends as its `j`-th draw says when
the draws before it were all discarded (41_sampler.md R145). -/
theorem exec_draw (i : Instr) (s : State) (x : Ctx) (j : Nat) (hi : i.draws = true) (hv : operandsValid s i)
    (hd : s.Drawable i.ctx x)
    (h : ∀ k, k < j → ∃ r y ks, nthDraw k (s.working x) s.ksAnswer = .done r y ks ∧ outcomeOf s r i = none) :
    ∃ d : Draw Word, exec i s = .next (finishDraw i.ctx d s) ∧
      (∀ r z k v, nthDraw j (s.working x) s.ksAnswer = .done r z k → outcomeOf s r i = some v → d = .done v z k) ∧
      (∀ z, nthDraw j (s.working x) s.ksAnswer = .waitKs z → d = .waitKs z) ∧
      (∀ z, nthDraw j (s.working x) s.ksAnswer = .primFail z → d = .primFail z) := by
  cases i with
  | nextRaw64 c =>
    refine ⟨nextRaw64 (s.working x) s.ksAnswer, ?_, ?_⟩
    · simp only [exec, execNextRaw64]; rw [onDrawable_of (c := c) hd]; rfl
    have hj0 : j = 0 := by
      by_contra hne; obtain ⟨r, z, k', _, e⟩ := h 0 (by omega); simp [outcomeOf] at e
    subst hj0
    simp only [nthDraw]
    refine ⟨?_, ?_, ?_⟩
    · intro r z k v e ha; rw [e]; simp [outcomeOf] at ha; rw [ha]
    · intro z e; exact e
    · intro z e; exact e
  | unitFloat c =>
    refine ⟨mapDraw unitFloatOf (nextRaw64 (s.working x) s.ksAnswer), ?_, ?_⟩
    · simp only [exec, execUnitFloat]; rw [onDrawable_of (c := c) hd]; rfl
    have hj0 : j = 0 := by
      by_contra hne; obtain ⟨r, z, k', _, e⟩ := h 0 (by omega); simp [outcomeOf] at e
    subst hj0
    simp only [nthDraw]
    refine ⟨?_, ?_, ?_⟩
    · intro r z k v e ha; rw [e]; simp [outcomeOf] at ha; rw [← ha]; rfl
    · intro z e; rw [e]; rfl
    · intro z e; rw [e]; rfl
  | boundedInt w c =>
    simp only [operandsValid] at hv
    have hf : fits w s.opa = true := by simpa [fits] using hv
    refine ⟨mapDraw (BitVec.ofNat 64) (bounded w (lowBits w s.opa) (s.working x) s.ksAnswer), ?_, ?_⟩
    · simp only [exec, execBoundedInt, hf, if_true]; rw [onDrawable_of (c := c) hd]; rfl
    rw [lowBits_of_lt hv]
    have := bounded_after w s.opa.toNat j (s.working x) s.ksAnswer hv (by
      intro k hk; obtain ⟨r, y, ks, e, ho⟩ := h k hk
      exact ⟨r, y, ks, e, by simpa [outcomeOf] using ho⟩)
    refine ⟨?_, ?_, ?_⟩
    · intro r z k v e ha
      simp only [outcomeOf, Option.map_eq_some_iff] at ha
      obtain ⟨a, ha, rfl⟩ := ha
      rw [this.1 r z k a e ha]; rfl
    · intro z e; rw [this.2.1 z e]; rfl
    · intro z e; rw [this.2.2 z e]; rfl
  | rangedInt w c =>
    simp only [operandsValid] at hv
    have hf : fits w s.opa = true := by simp [fits]; omega
    have hf2 : fits w s.opb = true := by simp [fits]; omega
    have ha' : s.opa.toNat < 2 ^ bitsOf w := by omega
    refine ⟨mapDraw (rangedResult w s.opa.toNat)
      (bounded w (s.opb.toNat - s.opa.toNat) (s.working x) s.ksAnswer), ?_, ?_⟩
    · simp only [exec, execRangedInt, hf, hf2, Bool.and_self, if_true]; rw [onDrawable_of (c := c) hd]
      rw [lowBits_of_lt ha', lowBits_of_lt hv.2, if_neg (by omega)]; rfl
    have := bounded_after w (s.opb.toNat - s.opa.toNat) j (s.working x) s.ksAnswer (by omega) (by
      intro k hk; obtain ⟨r, y, ks, e, ho⟩ := h k hk
      exact ⟨r, y, ks, e, by simpa [outcomeOf] using ho⟩)
    refine ⟨?_, ?_, ?_⟩
    · intro r z k v e ha
      simp only [outcomeOf, Option.map_eq_some_iff] at ha
      obtain ⟨a, ha, rfl⟩ := ha
      rw [this.1 r z k a e ha]
      have hle : a ≤ s.opb.toNat - s.opa.toNat := by
        unfold acceptDraw at ha
        split at ha
        · cases ha; have := lowBits_lt w r; omega
        split at ha
        · cases ha; exact Nat.and_le_right
        split at ha
        · cases ha
          have := Nat.mod_lt (lowBits w r) (show 0 < s.opb.toNat - s.opa.toNat + 1 by omega)
          omega
        · cases ha
      simp only [mapDraw, rangedResult]
      rw [Nat.mod_eq_of_lt (by omega)]
    · intro z e; rw [this.2.1 z e]; rfl
    · intro z e; rw [this.2.2 z e]; rfl
  | randomChar c =>
    simp only [operandsValid] at hv
    refine ⟨mapDraw (alphaEntry s) (bounded .w32 (s.alphaLen.toNat - 1) (s.working x) s.ksAnswer), ?_, ?_⟩
    · simp only [exec, execRandomChar]; rw [if_neg (by omega), onDrawable_of (c := c) hd, if_neg (by omega)]; rfl
    have := bounded_after .w32 (s.alphaLen.toNat - 1) j (s.working x) s.ksAnswer (by
      have := s.alphaLen.isLt; simp [bitsOf]; omega) (by
      intro k hk; obtain ⟨r, y, ks, e, ho⟩ := h k hk
      exact ⟨r, y, ks, e, by simpa [outcomeOf] using ho⟩)
    refine ⟨?_, ?_, ?_⟩
    · intro r z k v e ha
      simp only [outcomeOf, Option.map_eq_some_iff] at ha
      obtain ⟨a, ha, rfl⟩ := ha
      rw [this.1 r z k a e ha]; rfl
    · intro z e; rw [this.2.1 z e]; rfl
    · intro z e; rw [this.2.2 z e]; rfl
  | reseedAuto c => cases hi
  | reseedSeed c => cases hi
  | clone d c => cases hi
  | jump c => cases hi

end Sys2Proof.Machine
end

