-- ==== Sys2Proof/Laws/Encoding.lean ====
section
/-! SUPPORT. The fields of a command word: reading each field back, and a word from its fields. -/

namespace Sys2Proof

/-- The bits of a command word, field by field (30_encoding.md R80). -/
theorem commandWord_bit (s c : CtxIx) (w : BitVec 2) (o : BitVec 8) (i : Nat) :
    (commandWord s c w o).getLsbD i =
      if i < 8 then o.getLsbD i else if i < 10 then w.getLsbD (i - 8) else if i < 16 then false
      else if i < 24 then c.getLsbD (i - 16) else s.getLsbD (i - 24) := by
  refine (BitVec.getLsbD_append (x := s ++ c ++ 0#6 ++ w) (y := o)).trans ?_
  simp only [BitVec.getLsbD_append, BitVec.getLsbD_zero]
  repeat' split
  all_goals first | rfl | omega

theorem opField_commandWord (s c : CtxIx) (w : BitVec 2) (o : BitVec 8) :
    opField (commandWord s c w o) = o := by
  apply BitVec.eq_of_getLsbD_eq; intro i hi
  simp [opField, commandWord_bit, hi]

theorem widthField_commandWord (s c : CtxIx) (w : BitVec 2) (o : BitVec 8) :
    widthField (commandWord s c w o) = w := by
  apply BitVec.eq_of_getLsbD_eq; intro i hi
  simp only [widthField, BitVec.getLsbD_extractLsb', commandWord_bit, hi, decide_true, Bool.true_and]
  rw [if_neg (by omega), if_pos (by omega)]; congr 1; omega

theorem rsvField_commandWord (s c : CtxIx) (w : BitVec 2) (o : BitVec 8) :
    rsvField (commandWord s c w o) = 0#6 := by
  apply BitVec.eq_of_getLsbD_eq; intro i hi
  simp only [rsvField, BitVec.getLsbD_extractLsb', commandWord_bit, hi, decide_true, Bool.true_and]
  rw [if_neg (by omega), if_neg (by omega), if_pos (by omega)]; simp

theorem ctxField_commandWord (s c : CtxIx) (w : BitVec 2) (o : BitVec 8) :
    ctxField (commandWord s c w o) = c := by
  apply BitVec.eq_of_getLsbD_eq; intro i hi
  simp only [ctxField, BitVec.getLsbD_extractLsb', commandWord_bit, hi, decide_true, Bool.true_and]
  rw [if_neg (by omega), if_neg (by omega), if_neg (by omega), if_pos (by omega)]; congr 1; omega

theorem srcField_commandWord (s c : CtxIx) (w : BitVec 2) (o : BitVec 8) :
    srcField (commandWord s c w o) = s := by
  apply BitVec.eq_of_getLsbD_eq; intro i hi
  simp only [srcField, BitVec.getLsbD_extractLsb', commandWord_bit, hi, decide_true, Bool.true_and]
  rw [if_neg (by omega), if_neg (by omega), if_neg (by omega), if_neg (by omega)]; congr 1; omega

/-- A word whose RSV is 0 is the command word of its fields. -/
theorem commandWord_fields (w : Word32) (h : rsvField w = 0#6) :
    commandWord (srcField w) (ctxField w) (widthField w) (opField w) = w := by
  apply BitVec.eq_of_getLsbD_eq; intro i hi
  have hr : ∀ k, k < 6 → w.getLsbD (10 + k) = false := by
    intro k hk
    have := congrArg (·.getLsbD k) h
    simpa [rsvField, hk] using this
  rw [commandWord_bit]
  simp only [srcField, ctxField, widthField, opField, BitVec.getLsbD_extractLsb']
  repeat' split
  · simp [*]
  · rw [decide_eq_true (by omega), Bool.true_and]; congr 1; omega
  · rw [show i = 10 + (i - 10) by omega, hr _ (by omega)]
  · rw [decide_eq_true (by omega), Bool.true_and]; congr 1; omega
  · rw [decide_eq_true (by omega), Bool.true_and]; congr 1; omega

theorem decodeWidth_encodeWidth (w : Width) : decodeWidth (encodeWidth w) = w := by cases w <;> rfl

theorem encodeWidth_decodeWidth (c : BitVec 2) : encodeWidth (decodeWidth c) = c := by
  revert c; decide

/-- `OP` as a number (30_encoding.md R80). -/
theorem opField_toNat (w : Word32) : (opField w).toNat = w.toNat % 256 := by
  simp [opField, BitVec.extractLsb'_toNat]

/-- `W` as a number (30_encoding.md R80). -/
theorem widthField_toNat (w : Word32) : (widthField w).toNat = w.toNat / 2 ^ 8 % 4 := by
  simp [widthField, BitVec.extractLsb'_toNat, Nat.shiftRight_eq_div_pow]

/-- `RSV` as a number (30_encoding.md R80). -/
theorem rsvField_toNat (w : Word32) : (rsvField w).toNat = w.toNat / 2 ^ 10 % 64 := by
  simp [rsvField, BitVec.extractLsb'_toNat, Nat.shiftRight_eq_div_pow]

/-- `CTX` as a number (30_encoding.md R80). -/
theorem ctxField_toNat (w : Word32) : (ctxField w).toNat = w.toNat / 2 ^ 16 % 256 := by
  simp [ctxField, BitVec.extractLsb'_toNat, Nat.shiftRight_eq_div_pow]

/-- `SRC` as a number (30_encoding.md R80). -/
theorem srcField_toNat (w : Word32) : (srcField w).toNat = w.toNat / 2 ^ 24 := by
  have := w.isLt
  simp only [srcField, BitVec.extractLsb'_toNat, Nat.shiftRight_eq_div_pow]; omega

/-- When an `OP` names no command (30_encoding.md R88 item 1). -/
theorem decodeOp_eq_none (op : BitVec 8) (wd : Width) (c s : CtxIx) :
    decodeOp op wd c s = none ↔ op.toNat = 0 ∨ 10 ≤ op.toNat := by
  unfold decodeOp
  repeat' split
  all_goals first | (simp_all; done) | skip
  simp only [BitVec.toNat_eq] at *
  simp at *
  omega
end Sys2Proof
end

