-- ==== Sys2Proof/Laws/PerInstr.lean ====
section
/-! SUPPORT. A statement for every command: its word matches the row of 30_encoding.md R94 that stands for it. -/

namespace Sys2Proof.Laws.EncodesRow

/-- The mask and the match of a command's row (30_encoding.md R94). -/
def row : Instr → Word32 × Word32
  | .nextRaw64 _ => (0xFF00FFFF#32, 0x00000001#32)
  | .reseedAuto _ => (0xFF00FFFF#32, 0x00000002#32)
  | .reseedSeed _ => (0xFF00FFFF#32, 0x00000003#32)
  | .clone _ _ => (0x0000FFFF#32, 0x00000004#32)
  | .jump _ => (0xFF00FFFF#32, 0x00000005#32)
  | .boundedInt _ _ => (0xFF00FCFF#32, 0x00000006#32)
  | .rangedInt _ _ => (0xFF00FCFF#32, 0x00000007#32)
  | .unitFloat _ => (0xFF00FFFF#32, 0x00000008#32)
  | .randomChar _ => (0xFF00FFFF#32, 0x00000009#32)

/-- `word & mask == match` for the command's own row (30_encoding.md R94). -/
def Statement (i : Instr) : Prop := encode i &&& (row i).1 = (row i).2

theorem nextRaw64 (c : CtxIx) : Statement (.nextRaw64 c) := by revert c; unfold Statement; decide

theorem reseedAuto (c : CtxIx) : Statement (.reseedAuto c) := by revert c; unfold Statement; decide

theorem reseedSeed (c : CtxIx) : Statement (.reseedSeed c) := by revert c; unfold Statement; decide

theorem clone (d s : CtxIx) : Statement (.clone d s) := by
  apply BitVec.eq_of_getLsbD_eq; intro i hi
  simp only [row, encode, BitVec.getLsbD_and, commandWord_bit]
  interval_cases i <;> simp

theorem jump (c : CtxIx) : Statement (.jump c) := by revert c; unfold Statement; decide

theorem boundedInt (w : Width) (c : CtxIx) : Statement (.boundedInt w c) := by
  revert c; unfold Statement; cases w <;> decide

theorem rangedInt (w : Width) (c : CtxIx) : Statement (.rangedInt w c) := by
  revert c; unfold Statement; cases w <;> decide

theorem unitFloat (c : CtxIx) : Statement (.unitFloat c) := by revert c; unfold Statement; decide

theorem randomChar (c : CtxIx) : Statement (.randomChar c) := by revert c; unfold Statement; decide

end Sys2Proof.Laws.EncodesRow
end

