-- ==== Sys2Proof/Laws/Step.lean ====
section
/-! SUPPORT. What a step can do, said once, and what follows for the host port, for a property of every context and for the
sequencer. -/

namespace Sys2Proof.Machine

/-- The state the Engine's turn starts from: `s`, or `s` with the turn taken off the list. -/
def EngineState (s u : State) : Prop := u = s ∨ ∃ ts, s.turns = .engine :: ts ∧ u = { s with turns := ts }

/-- It is the Engine's turn: the list says so, or is empty (log entry 1). -/
def EngineMoves (s : State) : Prop := s.turns = [] ∨ s.turns.head? = some .engine

/-- Everything a host access can do. -/
inductive HostCase (s : State) : State → Prop
  /-- it is answered and changes nothing else: a read, a bus error, an ignored write (20_memory.md R52, R53, R55) -/
  | reply (r : Reply) : HostCase s { s with reply := r }
  /-- only OVR changes (20_memory.md R54, R57) -/
  | ovr (b : Bool) : HostCase s { s with ovr := b, reply := .done }
  /-- an accepted write of CMD (20_memory.md R63) -/
  | issue (w : Word32) (hi : s.phase = .idle) : HostCase s { issue w s with reply := .done }
  /-- an accepted write of a register that starts nothing (20_memory.md R54) -/
  | reg (r : Reg) (v : Word) (hi : s.phase = .idle) (hr : r ≠ .cmd) : HostCase s { writeReg s v r with reply := .done }

/-- What a write that starts nothing leaves (20_memory.md R54). -/
theorem writeReg_frame (s : State) (v : Word) (r : Reg) (h : r ≠ .cmd) :
    (writeReg s v r).ctxs = s.ctxs ∧ (writeReg s v r).cmd = s.cmd ∧ (writeReg s v r).err = s.err ∧
    (writeReg s v r).result = s.result ∧ (writeReg s v r).phase = s.phase ∧ (writeReg s v r).work = s.work ∧
    (writeReg s v r).ksAnswer = s.ksAnswer ∧ (writeReg s v r).entropyAnswer = s.entropyAnswer ∧
    (writeReg s v r).reqs = s.reqs ∧ (writeReg s v r).turns = s.turns ∧
    (writeReg s v r).alpha.length = s.alpha.length := by
  cases r with
  | cmd => exact absurd rfl h
  | status => simp only [writeReg]; split <;> simp
  | seed k => simp only [writeReg, writeSeed]; split <;> simp
  | _ => simp [writeReg]

/-- A host access does one of these things. -/
theorem host_cases (a : HostAccess) (s : State) : HostCase s (hostAccess a s) := by
  cases a with
  | read size off => exact .reply _
  | write size off v =>
    simp only [hostAccess]
    split
    · unfold hostWrite
      split
      · split
        · exact .ovr _
        · exact .ovr _
      · rename_i hb
        have hi : s.phase = .idle := by simpa [State.busy] using hb
        split
        · rename_i r hr
          by_cases hc : r = .cmd
          · subst hc; exact .issue _ hi
          · exact .reg r v hi hc
        · exact .reply _
    · exact .reply _

/-- Everything a step can do. -/
inductive StepCase (s : State) : State → Prop
  /-- the Engine runs the decoded command (20_memory.md R63) -/
  | run (u t : State) (i : Instr) (hu : EngineState s u) (hm : EngineMoves s) (hp : s.phase = .exec)
      (hd : decode u.ctxs.length u.cmd = .ok i) (he : exec i u = .next t) : StepCase s t
  /-- the latched word is illegal (60_exceptions.md R190) -/
  | illegal (u : State) (r : Illegal) (hu : EngineState s u) (hp : s.phase = .exec)
      (hd : decode u.ctxs.length u.cmd = .illegal r) : StepCase s (u.endedWith 5#8)
  /-- the Engine has nothing to do, or waits (10_state.md R34) -/
  | hold (u : State) (hu : EngineState s u) (hp : s.phase ≠ .exec) : StepCase s u
  | host (a : HostAccess) (ts : List Turn) (ht : s.turns = .host a :: ts) :
      StepCase s (hostAccess a { s with turns := ts })
  | keystream (q : Nat) (st : BitVec 8) (ts : List Turn) (ht : s.turns = .keystream q st :: ts) :
      StepCase s (keystreamTurn q st { s with turns := ts })
  | entropy (q : Nat) (e : EntropyAnswer) (ts : List Turn) (ht : s.turns = .entropy q e :: ts) :
      StepCase s (entropyTurn q e { s with turns := ts })
  | reset (ts : List Turn) (ht : s.turns = .reset :: ts) : StepCase s (hardReset { s with turns := ts })

/-- The Engine's turn. -/
theorem engineTurn_cases {s u t : State} (hu : EngineState s u) (hm : EngineMoves s) (h : engineTurn u = .next t) :
    StepCase s t := by
  have hp : u.phase = s.phase := by rcases hu with rfl | ⟨ts, _, rfl⟩ <;> rfl
  unfold engineTurn at h
  split at h
  · unfold runCommand at h
    split at h
    · rename_i h1 _ i hd; exact .run u t i hu hm (hp ▸ h1) hd h
    · rename_i h1 _ r hd; cases h; rw [raise_eq]; exact .illegal u r hu (hp ▸ h1) hd
  · rename_i h1; cases h; exact .hold _ hu (hp ▸ h1)

/-- A step does one of these things. -/
theorem step_cases {s t : State} (h : step s = .next t) : StepCase s t := by
  unfold step nextTurn at h
  split at h
  · exact engineTurn_cases (.inl rfl) (.inl ‹_›) h
  · rename_i a ts h0
    cases a with
    | engine => exact engineTurn_cases (.inr ⟨ts, h0, rfl⟩) (.inr (by simp [h0])) h
    | host a => cases h; exact .host a ts h0
    | keystream q st => cases h; exact .keystream q st ts h0
    | entropy q e => cases h; exact .entropy q e ts h0
    | reset => cases h; exact .reset ts h0

/-! ## The register window -/

/-- The registers below 0x50 (20_memory.md R51). -/
theorem controlReg_cases {k : Nat} {r : Reg} (h : controlReg k = some r) :
    regOffset r = 8 * k ∧ k < 10 ∧ ∀ i, r ≠ .alpha i := by
  unfold controlReg at h
  split at h <;> cases h <;> simp [regOffset]

/-- The register at an aligned offset is the one whose offset it is (20_memory.md R51). -/
theorem regAt_offset {cap off : Nat} {r : Reg} (h8 : off % 8 = 0) (h : regAt cap off = some r) :
    regOffset r = off ∧ ∀ i, r = .alpha i → i < cap := by
  unfold regAt at h
  split at h
  · have := controlReg_cases h
    exact ⟨by omega, fun i hi => absurd hi (this.2.2 i)⟩
  split at h
  · cases h; refine ⟨?_, by simp⟩; simp [regOffset]; omega
  split at h
  · cases h; simp [regOffset]; omega
  · cases h

/-- A register of the window stands at its offset (20_memory.md R51). -/
theorem regAt_of (cap : Nat) (r : Reg) (h : ∀ i, r = .alpha i → i < cap) : regAt cap (regOffset r) = some r := by
  unfold regAt
  cases r <;> try rfl
  case seed k =>
    have := k.isLt
    have e : regOffset (.seed k) = 0x100 + 8 * k.val := rfl
    rw [if_neg (by omega), if_pos (by omega)]; congr 2; apply Fin.ext; simp; omega
  case alpha i =>
    have := h i rfl
    have e : regOffset (.alpha i) = 0x1000 + 8 * i := rfl
    rw [if_neg (by omega), if_neg (by omega), if_pos (by omega)]; congr 2; omega

/-- States whose registers read alike read alike at every offset. -/
theorem hostRead_congr (s t : State) (off : Nat) (ha : s.alpha.length = t.alpha.length)
    (hr : ∀ r, regAt s.alpha.length off = some r → readReg s r = readReg t r) : hostRead s off = hostRead t off := by
  unfold hostRead; rw [← ha]; split
  · rename_i r h; exact hr r h
  · rfl

/-- CTX_INFO shows nothing of the secrets (20_memory.md R62). -/
theorem ctxInfoOf_hide (x : Ctx) : ctxInfoOf x.hide = ctxInfoOf x := rfl

/-! ## A property of the slots, and one of the working copy -/

/-- The state the Engine starts from has the slots and the working copy of `s`. -/
theorem EngineState.same {s u : State} (h : EngineState s u) :
    u.ctxs = s.ctxs ∧ u.work = s.work ∧ u.phase = s.phase ∧ u.cmd = s.cmd ∧ u.err = s.err ∧ u.alpha = s.alpha ∧
    u.ksAnswer = s.ksAnswer ∧ u.entropyAnswer = s.entropyAnswer := by
  rcases h with rfl | ⟨ts, _, rfl⟩ <;> exact ⟨rfl, rfl, rfl, rfl, rfl, rfl, rfl, rfl⟩

/-- Every slot has `P`, and a working copy has `R`. -/
def SlotsWork (P R : Ctx → Prop) (s : State) : Prop := (∀ x ∈ s.ctxs, P x) ∧ ∀ x, s.work = some x → R x

/-- What a write of a slot keeps. -/
theorem SlotsWork.set {P R : Ctx → Prop} {s t : State} {c : CtxIx} {z : Ctx} (h : SlotsWork P R s) (hz : P z)
    (ht : t.ctxs = s.ctxs.set c.toNat z) (hw : t.work = none) : SlotsWork P R t := by
  refine ⟨fun x hx => ?_, fun x hx => by rw [hw] at hx; cases hx⟩
  rw [ht] at hx
  rcases List.mem_or_eq_of_mem_set hx with hx | rfl
  · exact h.1 x hx
  · exact hz

/-- What a change elsewhere keeps. -/
theorem SlotsWork.same {P R : Ctx → Prop} {s t : State} (h : SlotsWork P R s) (hc : t.ctxs = s.ctxs)
    (hw : t.work = s.work ∨ t.work = none) : SlotsWork P R t := by
  refine ⟨hc ▸ h.1, fun x hx => ?_⟩
  rcases hw with hw | hw <;> rw [hw] at hx
  · exact h.2 x hx
  · cases hx

/-- A command keeps `P` of the slots and `R` of the working copy, when the writes of the spec do. -/
theorem slots_exec {P R : Ctx → Prop} (hRP : ∀ x, R x → P x)
    (hPR : ∀ x, P x → x.seeded = true → x.failed = false → R x) (href : ∀ x, R x → R (refillCtx x))
    (hadv : ∀ x, x.off.val ≤ 56 → R x → R (advance x)) (hfail : ∀ x, P x → P { x with failed := true })
    (hseed : ∀ x e, P x → P (seedCtx x e)) (hjump : ∀ x, P x → x.seeded = true → P (jumpCtx x)) {i : Instr} {s t : State}
    (hs : SlotsWork P R s) (h : exec i s = .next t) : SlotsWork P R t := by
  cases exec_cases h with
  | error e => exact hs.same rfl (.inr rfl)
  | request => exact hs
  | entropyFail c x hi ha hx hf => exact hs.set (c := c) (hfail x (hs.1 x (List.mem_of_getElem? hx))) rfl rfl
  | noop => exact hs.same rfl (.inr rfl)
  | write x z hd hx hf hz hsd how =>
    refine hs.set (c := i.ctx) ?_ rfl rfl
    have hP := hs.1 x (List.mem_of_getElem? hx)
    rcases how with ⟨_, e, rfl⟩ | ⟨_, h1, rfl⟩ | ⟨src, xs, _, hj, rfl⟩
    · exact hseed _ _ hP
    · exact hjump _ hP h1
    · exact hs.1 _ (List.mem_of_getElem? hj)
  | draw x d hd hx hm keeps =>
    have hR : R (s.working x) := by
      unfold State.working
      cases hw : s.work with
      | none => exact hPR x (hs.1 x (List.mem_of_getElem? hx.1)) hx.2.2 hx.2.1
      | some y => exact hs.2 y hw
    have := keeps (fun z _ => R z) href (fun x _ => hadv x) hR
    cases d with
    | done v z k => exact hs.set (c := i.ctx) (hRP _ this) rfl rfl
    | primFail z => obtain ⟨y, _, _, hy, rfl⟩ := this; exact hs.set (c := i.ctx) (hfail _ (hRP _ hy)) rfl rfl
    | waitKs z => exact ⟨hs.1, fun x hx => by cases hx; exact this⟩
    | more z k => exact absurd rfl (hm z k)

/-- A step keeps them too, when a slot at reset has `P`. -/
theorem slots_step {P R : Ctx → Prop} (hRP : ∀ x, R x → P x)
    (hPR : ∀ x, P x → x.seeded = true → x.failed = false → R x) (href : ∀ x, R x → R (refillCtx x))
    (hadv : ∀ x, x.off.val ≤ 56 → R x → R (advance x)) (hfail : ∀ x, P x → P { x with failed := true })
    (hseed : ∀ x e, P x → P (seedCtx x e)) (hjump : ∀ x, P x → x.seeded = true → P (jumpCtx x))
    (hreset : ∀ i, P (resetCtx i)) {s t : State} (hs : SlotsWork P R s) (h : step s = .next t) : SlotsWork P R t := by
  cases step_cases h with
  | run u t i hu hm hp hd he =>
    exact slots_exec hRP hPR href hadv hfail hseed hjump (hs.same hu.same.1 (.inl hu.same.2.1)) he
  | illegal u r hu => exact hs.same hu.same.1 (.inr rfl)
  | hold u hu => exact hs.same hu.same.1 (.inl hu.same.2.1)
  | host a ts ht =>
    generalize ho : hostAccess a { s with turns := ts } = w
    have hc := host_cases a { s with turns := ts }
    rw [ho] at hc
    cases hc with
    | reply => exact hs
    | ovr => exact hs
    | issue => exact hs.same rfl (.inr rfl)
    | reg r v hi hr =>
      have hf := writeReg_frame { s with turns := ts } v r hr
      exact hs.same hf.1 (.inl hf.2.2.2.2.2.1)
  | keystream q st ts ht => unfold keystreamTurn; split <;> exact hs
  | entropy q e ts ht => unfold entropyTurn; split <;> exact hs
  | reset ts ht =>
    refine ⟨fun x hx => ?_, fun x hx => by cases hx⟩
    obtain ⟨i, _, rfl⟩ := List.mem_map.1 (show x ∈ (List.range s.ctxs.length).map resetCtx from hx)
    exact hreset i

/-- A Refill leaves the block of the triple it passed (10_state.md R26). -/
theorem provenance_refill (x : Ctx) : (refillCtx x).Provenance := by
  intro _
  show Config.keystreamBlock x.key x.nonce x.ctr = _
  unfold prevTriple
  by_cases h : x.ctr + 1#32 = 0#32
  · have h3 : x.ctr = 0xFFFFFFFF#32 := by
      apply BitVec.eq_of_toNat_eq; rw [(ctr_wraps x.ctr).1 h]; rfl
    rw [if_pos (show (refillCtx x).ctr = 0#32 from h), h3]
    simp only [refillCtx_nonce, if_pos h, be96inv_be96_nonceInc_sub]
    rfl
  · rw [if_neg (show ¬ (refillCtx x).ctr = 0#32 from h)]
    have : (refillCtx x).ctr - 1#32 = x.ctr := BitVec.add_sub_cancel _ _
    simp only [this, refillCtx_nonce, if_neg h]
    rfl

/-! ## The sequencer -/

/-- In Idle with nothing in flight the sequencer's state fits its phase (10_state.md R34). -/
theorem coherent_idle (t : State) (h1 : t.phase = .idle) (h2 : t.work = none) (h3 : t.ksAnswer = none)
    (h4 : t.entropyAnswer = none) : t.Coherent := by
  refine ⟨fun _ => ⟨h2, h3, h4⟩, fun h => ?_, fun h => ?_, fun h => ?_, fun h => ?_⟩
  · rw [h1] at h; cases h
  · rw [h1] at h; cases h
  · rw [h2, h3] at h; rcases h with h | h <;> cases h
  · rw [h4] at h; cases h

/-- Coherence reads only the sequencer's fields, the word and the number of slots. -/
theorem coherent_same {u t : State} (h : u.Coherent) (h1 : t.ctxs.length = u.ctxs.length) (h2 : t.cmd = u.cmd)
    (h3 : t.phase = u.phase) (h4 : t.work = u.work) (h5 : t.ksAnswer = u.ksAnswer)
    (h6 : t.entropyAnswer = u.entropyAnswer) : t.Coherent := by
  unfold State.Coherent State.RunsDraw State.RunsReseedAuto
  rw [h1, h2, h3, h4, h5, h6]; exact h

/-- What a reset leaves of the two lists: the parameters (00_scope.md R8; log entry 16). -/
theorem resetState_lengths (n m : Nat) : (resetState n m).ctxs.length = n ∧ (resetState n m).alpha.length = m := by
  simp [resetState]

end Sys2Proof.Machine
end

