-- ==== Sys2Proof/Machine/Program.lean ====
section
/-! DEFINITION. The assembler syntax and the pseudo-instructions: a host program as a list of turns (30_encoding.md R91,
R92). Log entry 20. -/

namespace Sys2Proof.Machine

/-- A context as the assembler writes it, `c<n>` (30_encoding.md R91). -/
def asmCtx (c : CtxIx) : String := "c" ++ toString c.toNat

/-- The width suffix `.<w>` (30_encoding.md R91). -/
def asmWidth (w : Width) : String := "." ++ toString (bitsOf w)

/-- One command line (30_encoding.md R91). -/
def asm : Instr → String
  | .nextRaw64 c => "NEXT_RAW64 " ++ asmCtx c
  | .reseedAuto c => "RESEED_AUTO " ++ asmCtx c
  | .reseedSeed c => "RESEED_SEED " ++ asmCtx c
  | .clone d s => "CLONE " ++ asmCtx d ++ ", " ++ asmCtx s
  | .jump c => "JUMP " ++ asmCtx c
  | .boundedInt w c => "BOUNDED_INT" ++ asmWidth w ++ " " ++ asmCtx c
  | .rangedInt w c => "RANGED_INT" ++ asmWidth w ++ " " ++ asmCtx c
  | .unitFloat c => "UNIT_FLOAT " ++ asmCtx c
  | .randomChar c => "RANDOM_CHAR " ++ asmCtx c

/-- `wr <REG>, <value>` (30_encoding.md R91). -/
def wr (r : Reg) (v : Word) : Turn := .host (.write 8 (regOffset r) v)

/-- `rd <REG>` (30_encoding.md R91). -/
def rd (r : Reg) : Turn := .host (.read 8 (regOffset r))

/-- `wait` (30_encoding.md R92), of a command that needs no answer: the engine runs it, the host reads STATUS once. -/
def waitTurns : List Turn := [.engine, rd .status]

/-- A command mnemonic: `wr CMD, <its word>` and `wait` (30_encoding.md R91). -/
def commandTurns (i : Instr) : List Turn := wr .cmd ((encode i).zeroExtend 64) :: waitTurns

/-- `FORK c<d>, c<s>` (30_encoding.md R92). -/
def forkTurns (d s : CtxIx) : List Turn := commandTurns (.clone d s) ++ commandTurns (.jump d)

/-- SEED<k> of a seed, packed little-endian (20_memory.md R60). -/
def packSeed (e : Seed) (k : Nat) : Word :=
  e[8 * k + 7]?.getD 0#8 ++ e[8 * k + 6]?.getD 0#8 ++ e[8 * k + 5]?.getD 0#8 ++ e[8 * k + 4]?.getD 0#8
    ++ e[8 * k + 3]?.getD 0#8 ++ e[8 * k + 2]?.getD 0#8 ++ e[8 * k + 1]?.getD 0#8 ++ e[8 * k]?.getD 0#8

/-- `SEED c<n>, <b0..b43>` (30_encoding.md R92). -/
def seedTurns (c : CtxIx) (e : Seed) : List Turn :=
  [wr .seedLen 44#64, wr (.seed 0) (packSeed e 0), wr (.seed 1) (packSeed e 1), wr (.seed 2) (packSeed e 2),
    wr (.seed 3) (packSeed e 3), wr (.seed 4) (packSeed e 4), wr (.seed 5) (packSeed e 5)]
    ++ commandTurns (.reseedSeed c)

/-- `BOUNDED_INT.<w> c<n>, m` (30_encoding.md R92). -/
def boundedTurns (w : Width) (c : CtxIx) (m : Word) : List Turn := wr .opa m :: commandTurns (.boundedInt w c)

/-- `RANGED_INT.<w> c<n>, lo, hi` (30_encoding.md R92). -/
def rangedTurns (w : Width) (c : CtxIx) (lo hi : Word) : List Turn :=
  wr .opa lo :: wr .opb hi :: commandTurns (.rangedInt w c)

/-- `wr ALPHA[i], e_i` from entry `i` on (30_encoding.md R92). -/
def alphaTurns : Nat → List Word32 → List Turn
  | _, [] => []
  | i, e :: es => wr (.alpha i) (e.zeroExtend 64) :: alphaTurns (i + 1) es

/-- `ALPHABET <e0..e(L-1)>` (30_encoding.md R92). -/
def alphabetTurns (es : List Word32) : List Turn :=
  wr .alphaLen (BitVec.ofNat 64 es.length) :: alphaTurns 0 es

end Sys2Proof.Machine
end

