-- ==== Sys2Proof/Tests/Slice0.lean ====
section
/-! SUPPORT. Tests. The expected values are those of 95_test_vectors.md, of the examples in the rules, or worked out by
hand from the rules; each theorem names its source. Then, for every obligation with hypotheses, a witness that meets
them. -/

namespace Sys2Proof.Tests

open Sys2Proof Sys2Proof.Machine

/-! ## Helpers -/

/-- What an observation sees of the next state. -/
def seen {α : Type} (f : State → α) : Host.Outcome State Fault Refusal → Option α
  | .next t => some (f t)
  | .fault _ => none
  | .refused _ => none

/-- blk(Z32, Z12, 0) of 95_test_vectors.md section 2.3. -/
def blockZero : Block :=
  #v[0x76#8, 0xb8#8, 0xe0#8, 0xad#8, 0xa0#8, 0xf1#8, 0x3d#8, 0x90#8, 0x40#8, 0x5d#8, 0x6a#8, 0xe5#8, 0x53#8, 0x86#8,
     0xbd#8, 0x28#8, 0xbd#8, 0xd2#8, 0x19#8, 0xb8#8, 0xa0#8, 0x8d#8, 0xed#8, 0x1a#8, 0xa8#8, 0x36#8, 0xef#8, 0xcc#8,
     0x8b#8, 0x77#8, 0x0d#8, 0xc7#8, 0xda#8, 0x41#8, 0x59#8, 0x7c#8, 0x51#8, 0x57#8, 0x48#8, 0x8d#8, 0x77#8, 0x24#8,
     0xe0#8, 0x3f#8, 0xb8#8, 0xd8#8, 0x4a#8, 0x37#8, 0x6a#8, 0x43#8, 0xb8#8, 0xf4#8, 0x15#8, 0x18#8, 0xa1#8, 0x1c#8,
     0xc3#8, 0x87#8, 0xb6#8, 0x69#8, 0xb2#8, 0xee#8, 0x65#8, 0x86#8]

/-- A seeded context with that block in its buffer, zero key and nonce, CTR 1, at offset `o`. -/
def ctxAt (o : Fin 65) : Ctx where
  key := Vector.replicate 32 0#8
  nonce := Vector.replicate 12 0#8
  ctr := 1#32
  buf := blockZero
  off := o
  seeded := true
  failed := false

/-- An unseeded context at its reset position. -/
def unseeded : Ctx := { ctxAt 64 with ctr := 0#32, seeded := false }

/-- A failed context. -/
def broken : Ctx := { ctxAt 64 with failed := true }

/-- A block with these contexts and the alphabet 0x61, 0x62, 0x63, 0, its command `w` being run. -/
def running (w : Word32) (xs : List Ctx) : State :=
  { resetState 0 0 with ctxs := xs, alpha := [0x61#32, 0x62#32, 0x63#32, 0#32], alphaLen := 3#32, phase := .exec, cmd := w }

/-- The same block with nothing running. -/
def resting (xs : List Ctx) : State := { running 0#32 xs with phase := .idle }

/-- RESULT, ERR and OFF of slot 0. -/
def resErrOff (t : State) : Word × BitVec 8 × Option (Fin 65) := (t.result, t.err, t.ctxs[0]?.map Ctx.off)

/-! ## WellFormed: each check refuses an ill-formed command -/

theorem test_wf_nextRaw64 : (Instr.nextRaw64 4).wellFormed 4 = false ∧ (Instr.nextRaw64 3).wellFormed 4 = true := by decide
theorem test_wf_reseedAuto : (Instr.reseedAuto 4).wellFormed 4 = false := by decide
theorem test_wf_reseedSeed : (Instr.reseedSeed 4).wellFormed 4 = false := by decide
theorem test_wf_clone_destination : (Instr.clone 4 0).wellFormed 4 = false := by decide
theorem test_wf_clone_source : (Instr.clone 0 4).wellFormed 4 = false := by decide
theorem test_wf_jump : (Instr.jump 4).wellFormed 4 = false := by decide
theorem test_wf_boundedInt : (Instr.boundedInt .w8 4).wellFormed 4 = false := by decide
theorem test_wf_rangedInt : (Instr.rangedInt .w64 4).wellFormed 4 = false := by decide
theorem test_wf_unitFloat : (Instr.unitFloat 4).wellFormed 4 = false := by decide
theorem test_wf_randomChar : (Instr.randomChar 4).wellFormed 4 = false := by decide

/-! ## Decode: words of 95_test_vectors.md section 2.10 and 30_encoding.md R94 -/

theorem test_decode_nextRaw64 : decode 4 0x00000001#32 = .ok (.nextRaw64 0) ∧ decode 4 0x00030001#32 = .ok (.nextRaw64 3) := by
  decide
theorem test_decode_reseedAuto : decode 4 0x00000002#32 = .ok (.reseedAuto 0) := by decide
theorem test_decode_reseedSeed : decode 4 0x00010003#32 = .ok (.reseedSeed 1) := by decide
theorem test_decode_clone : decode 4 0x00010004#32 = .ok (.clone 1 0) ∧ decode 4 0x02010004#32 = .ok (.clone 1 2) := by decide
theorem test_decode_jump : decode 4 0x00010005#32 = .ok (.jump 1) := by decide
theorem test_decode_boundedInt :
    decode 4 0x00000006#32 = .ok (.boundedInt .w8 0) ∧ decode 4 0x00020306#32 = .ok (.boundedInt .w64 2) := by decide
theorem test_decode_rangedInt :
    decode 4 0x00000107#32 = .ok (.rangedInt .w16 0) ∧ decode 4 0x00000207#32 = .ok (.rangedInt .w32 0) := by decide
theorem test_decode_unitFloat : decode 4 0x00000008#32 = .ok (.unitFloat 0) := by decide
theorem test_decode_randomChar : decode 4 0x00000009#32 = .ok (.randomChar 0) := by decide
theorem test_illegal_opcode :
    decode 4 0x00000000#32 = .illegal .opcode ∧ decode 4 0x0000000A#32 = .illegal .opcode ∧
      decode 4 0xFFFFFFFF#32 = .illegal .opcode := by decide
theorem test_illegal_fields :
    decode 4 0x00000401#32 = .illegal .reserved ∧ decode 4 0x00008001#32 = .illegal .reserved ∧
      decode 4 0x00000101#32 = .illegal .width ∧ decode 4 0x01000001#32 = .illegal .source ∧
      decode 4 0x00040001#32 = .illegal .context ∧ decode 4 0x04000004#32 = .illegal .sourceContext := by decide
/-- The host's numbering of the word: a row's word is the command word. -/
theorem test_decodeTableWord : decodeTableWord 32 0x00010004 = some (.clone 1 0) ∧ decodeTableWord 32 0x00040001 = none := by
  decide

/-! ## The commands -/

/-- 95 section 2.3, draws 1 and 8; E2: OFF 56 is served without a Refill. -/
theorem test_nextRaw64 :
    seen resErrOff (exec (.nextRaw64 0) (running 1#32 [ctxAt 0])) = some (0x903DF1A0ADE0B876#64, 0#8, some 8) ∧
      seen resErrOff (exec (.nextRaw64 0) (running 1#32 [ctxAt 56])) = some (0x8665EEB269B687C3#64, 0#8, some 64) := by
  decide

/-- E2, R102: OFF 64 refills; CTR of slot 0 goes on, OFF 8; with status 3 it fails. -/
theorem test_nextRaw64_refill :
    seen (fun t => (t.err, t.ctxs.map fun x => (x.ctr, x.off, x.failed)))
        (exec (.nextRaw64 0) { running 1#32 [ctxAt 64] with ksAnswer := some 0#8 }) = some (0#8, [(2#32, 8, false)]) ∧
      seen (fun t => (t.err, t.ctxs.map fun x => (x.ctr, x.off, x.failed)))
        (exec (.nextRaw64 0) { running 1#32 [ctxAt 64] with ksAnswer := some 3#8 }) = some (4#8, [(1#32, 64, true)]) := by
  decide

/-- The seed 00 01 .. 2b of 95 E1. -/
def seedE1 : Seed := Vector.ofFn fun i => BitVec.ofNat 8 i.val

/-- 95 section 2.4: CTX_INFO of the slot after RESEED_AUTO with 00 01 .. 2b, and after `fail`. -/
theorem test_reseedAuto :
    seen (fun t => (t.err, ctxInfoWord t, t.ctxs.map fun x => (x.key[31], x.nonce[0])))
        (exec (.reseedAuto 0) { running 2#32 [unseeded] with entropyAnswer := some (.bytes seedE1) })
      = some (0#8, 0x0000000000004005#64, [(0x1f#8, 0x20#8)]) ∧
    seen (fun t => (t.err, ctxInfoWord t))
        (exec (.reseedAuto 0) { running 2#32 [unseeded] with entropyAnswer := some .fail })
      = some (7#8, 0x0000000000004006#64) := by
  decide

/-- A block whose seed registers hold 00 01 .. 2b, packed as 95 E1 says. -/
def seeding (len : Word32) (xs : List Ctx) : State :=
  { running 3#32 xs with
    seedLen := len
    seed := #v[0x0706050403020100#64, 0x0F0E0D0C0B0A0908#64, 0x1716151413121110#64, 0x1F1E1D1C1B1A1918#64,
               0x2726252423222120#64]
    seed5 := 0x2B2A2928#32 }

/-- 95 section 2.4: SEED_LEN 44 seeds, 43 ends with 1. -/
theorem test_reseedSeed :
    seen (fun t => (t.err, ctxInfoWord t, t.ctxs.map fun x => (x.key[31], x.nonce[0], x.nonce[11])))
        (exec (.reseedSeed 0) (seeding 44#32 [unseeded]))
      = some (0#8, 0x0000000000004005#64, [(0x1f#8, 0x20#8, 0x2b#8)]) ∧
    seen (fun t => (t.err, ctxInfoWord t)) (exec (.reseedSeed 0) (seeding 43#32 [unseeded]))
      = some (1#8, 0x0000000000004004#64) := by
  decide

/-- 95 E1: the packing of the assembler's SEED is that of the seed registers. -/
theorem test_packSeed :
    packSeed seedE1 0 = 0x0706050403020100#64 ∧ packSeed seedE1 4 = 0x2726252423222120#64 ∧
      packSeed seedE1 5 = 0x000000002B2A2928#64 := by decide

/-- 95 section 2.5: CLONE c1, c0; and the errors. -/
theorem test_clone :
    seen (fun t => (t.err, t.ctxs)) (exec (.clone 1 0) (running 0x00010004#32 [ctxAt 24, unseeded]))
      = some (0#8, [ctxAt 24, ctxAt 24]) ∧
    seen (fun t => (t.err, t.ctxs)) (exec (.clone 1 0) (running 0x00010004#32 [unseeded, broken]))
      = some (8#8, [unseeded, broken]) := by
  decide

/-- 95 section 2.5: JUMP of a nonce ff..ff. -/
theorem test_jump :
    seen (fun t => (t.err, t.ctxs))
        (exec (.jump 0) (running 5#32 [{ ctxAt 24 with nonce := Vector.replicate 12 0xff#8 }]))
      = some (0#8, [{ ctxAt 64 with ctr := 0#32 }]) ∧
    seen (fun t => (t.err, t.ctxs)) (exec (.jump 0) (running 5#32 [unseeded])) = some (6#8, [unseeded]) := by
  decide

/-- 95 section 2.6: five draws of width 32, four of them discarded; P3's fifth call: 0xDA is discarded. -/
theorem test_boundedInt :
    seen resErrOff (exec (.boundedInt .w32 0) { running 0x206#32 [ctxAt 0] with opa := 0x80000000#64 })
      = some (0x7C5941DA#64, 0#8, some 40) ∧
    seen resErrOff (exec (.boundedInt .w8 0) { running 6#32 [ctxAt 32] with opa := 200#64 })
      = some (119#64, 0#8, some 48) := by
  decide

/-- 95 section 2.6: the mask path, the operand that does not fit. -/
theorem test_boundedInt_mask :
    seen resErrOff (exec (.boundedInt .w8 0) { running 6#32 [ctxAt 0] with opa := 15#64 }) = some (6#64, 0#8, some 8) ∧
    seen resErrOff (exec (.boundedInt .w8 0) { running 6#32 [ctxAt 0] with opa := 0x100#64 }) = some (0#64, 5#8, some 0) := by
  decide

/-- 95 section 2.7. -/
theorem test_rangedInt :
    seen resErrOff (exec (.rangedInt .w8 0) { running 7#32 [ctxAt 0] with opa := 10#64, opb := 20#64 })
      = some (18#64, 0#8, some 8) ∧
    seen resErrOff (exec (.rangedInt .w64 0)
        { running 0x307#32 [ctxAt 0] with opa := 0x8000000000000000#64, opb := 0xFFFFFFFFFFFFFFFF#64 })
      = some (0x903DF1A0ADE0B876#64, 0#8, some 8) := by
  decide

/-- 95 section 2.7: min > max; on an unseeded context NotSeeded comes first. -/
theorem test_rangedInt_errors :
    seen resErrOff (exec (.rangedInt .w8 0) { running 7#32 [ctxAt 0] with opa := 20#64, opb := 10#64 })
      = some (0#64, 2#8, some 0) ∧
    seen resErrOff (exec (.rangedInt .w8 0) { running 7#32 [unseeded] with opa := 20#64, opb := 10#64 })
      = some (0#64, 6#8, some 64) := by
  decide

/-- 95 section 2.8. -/
theorem test_unitFloat :
    seen resErrOff (exec (.unitFloat 0) (running 8#32 [ctxAt 0])) = some (0x3FE207BE3415BC17#64, 0#8, some 8) := by decide

/-- 95 section 2.8 and R155: F64 of the corner draws. -/
theorem test_f64 :
    unitFloatOf 0x7FF#64 = 0#64 ∧ unitFloatOf 0x800#64 = 0x3CA0000000000000#64 ∧
      unitFloatOf 0x4000000000000000#64 = 0x3FD0000000000000#64 ∧
      unitFloatOf 0xC000000000000000#64 = 0x3FE8000000000000#64 ∧
      unitFloatOf 0xFFFFFFFFFFFFFFFF#64 = 0x3FEFFFFFFFFFFFFF#64 := by decide

/-- 95 section 2.9: draws 1 and 3. -/
theorem test_randomChar :
    seen resErrOff (exec (.randomChar 0) (running 9#32 [ctxAt 0])) = some (0x61#64, 0#8, some 8) ∧
    seen resErrOff (exec (.randomChar 0) (running 9#32 [ctxAt 16])) = some (0x63#64, 0#8, some 24) := by
  decide

/-- 95 section 2.9: L = 0 and L above the capacity. -/
theorem test_randomChar_errors :
    seen resErrOff (exec (.randomChar 0) { running 9#32 [ctxAt 0] with alphaLen := 0#32 }) = some (0#64, 3#8, some 0) ∧
    seen resErrOff (exec (.randomChar 0) { running 9#32 [ctxAt 0] with alphaLen := 5#32 }) = some (0#64, 5#8, some 0) := by
  decide

/-! ## Shared operations -/

/-- 95 section 2.1, rows 2, 4 and 6. -/
theorem test_nonceInc :
    nonceInc #v[0#8, 0#8, 0#8, 0#8, 0#8, 0#8, 0#8, 0#8, 0#8, 0#8, 0#8, 0xff#8]
      = #v[0#8, 0#8, 0#8, 0#8, 0#8, 0#8, 0#8, 0#8, 0#8, 0#8, 1#8, 0#8] ∧
    nonceInc #v[1#8, 2#8, 3#8, 4#8, 5#8, 6#8, 7#8, 8#8, 9#8, 0xa#8, 0xb#8, 0xff#8]
      = #v[1#8, 2#8, 3#8, 4#8, 5#8, 6#8, 7#8, 8#8, 9#8, 0xa#8, 0xc#8, 0#8] ∧
    nonceInc #v[0#8, 0xff#8, 0xff#8, 0xff#8, 0xff#8, 0xff#8, 0xff#8, 0xff#8, 0xff#8, 0xff#8, 0xff#8, 0xff#8]
      = #v[1#8, 0#8, 0#8, 0#8, 0#8, 0#8, 0#8, 0#8, 0#8, 0#8, 0#8, 0#8] := by decide

/-- 95 section 2.6: limits. -/
theorem test_rejectLimit :
    rejectLimit .w8 201 = 201 ∧ rejectLimit .w16 1000 = 65000 ∧ rejectLimit .w32 6 = 4294967292 ∧
      rejectLimit .w64 11 = 2 ^ 64 - 5 := by decide

/-- 95 E8: the Refill at counter 2^32 - 1 moves the nonce, the one before does not. -/
theorem test_rollover :
    (refillCtx { ctxAt 64 with ctr := 0xFFFFFFFF#32 }).ctr = 0#32 ∧
      (refillCtx { ctxAt 64 with ctr := 0xFFFFFFFF#32 }).nonce[11] = 1#8 ∧
      (refillCtx { ctxAt 64 with ctr := 0xFFFFFFFE#32 }).nonce[11] = 0#8 := by decide

/-! ## The host interface: 95_test_vectors.md section 2.11 -/

theorem test_reset_reads :
    hostRead State.reset 0x08 = 0#64 ∧ hostRead State.reset 0x00 = 0#64 ∧
      hostRead State.reset 0x40 = 0x4004#64 ∧ hostRead { State.reset with ctxSel := 4#8 } 0x40 = 0#64 := by decide

theorem test_reset_params : hostRead State.reset 0x48 = 0x0000000001000004#64 := by
  have h : State.reset.alpha.length = 256 := List.length_replicate
  show paramsWord State.reset = _
  rw [paramsWord, h]; decide

theorem test_status_bits :
    hostRead { resting [] with err := 2#8, ovr := true } 0x08 = 0x202#64 ∧
      (hostWrite { resting [] with err := 2#8, ovr := true } 0x08 2#64).ovr = false ∧
      hostRead { running 1#32 [] with ovr := true } 0x08 = 3#64 := by decide

theorem test_busy_write :
    seen (fun t => (t.ovr, t.opa, t.reply)) (step { running 1#32 [] with turns := [wr .opa 7#64] })
      = some (true, 0#64, .done) ∧
    seen (fun t => (t.opa, t.ovr)) (step { resting [] with turns := [wr .opa 7#64] }) = some (7#64, false) := by decide

theorem test_bus_error :
    seen (fun t => t.reply) (step { resting [] with turns := [.host (.read 4 0)] }) = some .busError ∧
      seen (fun t => t.reply) (step { resting [] with turns := [.host (.read 8 4)] }) = some .busError := by decide

/-- R63: an accepted write of CMD; the next Engine turn runs it; an illegal word ends with 5 and CMD keeps it. -/
theorem test_issue_and_run :
    seen (fun t => (t.cmd, t.phase)) (step { resting [ctxAt 0] with turns := [wr .cmd 0x1#64] }) = some (1#32, .exec) ∧
      seen (fun t => (t.result, t.phase)) (step (running 1#32 [ctxAt 0])) = some (0x903DF1A0ADE0B876#64, .idle) ∧
      seen (fun t => (t.cmd, t.err, t.phase)) (step (running 0x101#32 [ctxAt 0])) = some (0x101#32, 5#8, .idle) := by decide

/-- `withFetchWord` places a command that the next step runs, from reset (log entry 11). -/
theorem test_withFetchWord :
    seen (fun t => (t.cmd, t.err)) (step (State.reset.withFetchWord 32 0x00010004)) = some (0x00010004#32, 6#8) := by decide

/-- R91: the assembler's line of a command. -/
theorem test_asm : asm (.clone 1 0) = "CLONE c1, c0" ∧ asm (.boundedInt .w64 2) = "BOUNDED_INT.64 c2" := by decide

/-! ## Witnesses: states and operands that meet an obligation's hypotheses -/

/-- A slot 0 at these, the answer latch holding `ks`. -/
def answered (w : Word32) (xs : List Ctx) (ks : Option (BitVec 8)) : State := { running w xs with ksAnswer := ks }

theorem drawable_running (w : Word32) (o : Fin 65) (ks : Option (BitVec 8)) :
    (answered w [ctxAt o] ks).Drawable 0 (ctxAt o) := ⟨rfl, rfl, rfl⟩

theorem witness_DecodeOfEncode : (Instr.clone 255 255).wellFormed 256 = true ∧ (Instr.rangedInt .w64 0).wellFormed 1 = true := by
  decide

theorem witness_EncodeOfDecode : decode 256 0xFFFF0004#32 = .ok (.clone 255 255) := by decide

theorem witness_StepRunsDecoded :
    (running 1#32 [ctxAt 0]).phase = .exec ∧ decode [ctxAt 0].length 1#32 = .ok (.nextRaw64 0) ∧
      (running 1#32 [ctxAt 0]).turns = [] ∧ { running 1#32 [ctxAt 0] with turns := [.engine] }.turns = .engine :: [] ∧
      1 < 2 ^ 32 := by decide

/-- The Engine's turn in each phase but Exec leaves the number of requests as it is. -/
theorem witness_StepRunsDecoded_holds :
    let waiting := fun p => { running 1#32 [ctxAt 64] with phase := p }
    (waiting .idle).phase ≠ .exec ∧ (waiting .waitEntropy).phase ≠ .exec ∧ (waiting .waitKeystream).phase ≠ .exec ∧
      (waiting .idle).turns = [] ∧ { waiting .waitKeystream with turns := [.engine] }.turns = .engine :: [] ∧
      seen (fun t => t.reqs) (step (waiting .waitKeystream)) = some 0 := by decide

/-- A word that fails decoding, and one whose operand does not fit. -/
theorem witness_IllegalWordEnds :
    (running 0x101#32 [ctxAt 0]).phase = .exec ∧ decode [ctxAt 0].length 0x101#32 = .illegal .width ∧
      decode [ctxAt 0].length 6#32 = .ok (.boundedInt .w8 0) ∧
      ¬ operandsFit { running 6#32 [ctxAt 0] with opa := 256#64, turns := [.engine] } (.boundedInt .w8 0) ∧
      { running 0x101#32 [ctxAt 0] with turns := [.engine] }.turns = .engine :: [] :=
  ⟨rfl, by decide, by decide, by simp [operandsFit, bitsOf], rfl⟩

theorem witness_EveryCommandEndsOrWaits : ∃ t, exec (.nextRaw64 0) (running 1#32 [ctxAt 64]) = .next t := ⟨_, rfl⟩

theorem witness_NextRaw64FromBuffer :
    (running 1#32 [ctxAt 56]).Drawable 0 (ctxAt 56) ∧ ((running 1#32 [ctxAt 56]).working (ctxAt 56)).off.val ≤ 56 := by
  exact ⟨⟨rfl, rfl, rfl⟩, by decide⟩

theorem witness_NextRaw64AfterRefill (o : Fin 65) (ho : 56 < o.val) :
    let s := answered 1#32 [ctxAt o] (some 0#8)
    s.Drawable 0 (ctxAt o) ∧ 56 < (s.working (ctxAt o)).off.val ∧ s.ksAnswer = some 0#8 :=
  ⟨drawable_running _ _ _, ho, rfl⟩

theorem witness_DrawsWalkTheBuffer :
    (ctxAt 56).off.val + 8 * 0 ≤ 56 ∧ (ctxAt 0).off.val + 8 * 7 ≤ 56 ∧ 7 < 8 ∧ 56 < (ctxAt 57).off.val := by decide

/-- BOUNDED_INT.8 with m = 200 and one draw left in the buffer, whose low byte 0xC3 = 195 is accepted, or 0xDA = 218 at
offset 32, which is not. -/
theorem witness_DrawHoldsForKeystream :
    let s := { answered 6#32 [{ ctxAt 56 with buf := blockZero.set 56 0xDA#8 }] none with opa := 200#64 }
    let x := { ctxAt 56 with buf := blockZero.set 56 0xDA#8 }
    operandsValid s (.boundedInt .w8 0) ∧ s.Drawable 0 x ∧
      (∀ k, k < 1 → ∃ r y ks, nthDraw k (s.working x) s.ksAnswer = .done r y ks ∧ outcomeOf s r (.boundedInt .w8 0) = none) ∧
      nthDraw 1 (s.working x) s.ksAnswer = .waitKs { x with off := 64 } := by
  refine ⟨show 200 < 2 ^ 8 by decide, ⟨rfl, rfl, rfl⟩, ?_, by decide⟩
  intro k hk
  obtain rfl : k = 0 := by omega
  exact ⟨_, _, _, rfl, by decide⟩

theorem witness_DrawHoldsForKeystream_first :
    let s := answered 1#32 [ctxAt 64] none
    (Instr.nextRaw64 0).draws = true ∧ operandsValid s (.nextRaw64 0) ∧ s.Drawable 0 (ctxAt 64) ∧
      nthDraw 0 (s.working (ctxAt 64)) s.ksAnswer = .waitKs (ctxAt 64) := by
  exact ⟨rfl, trivial, ⟨rfl, rfl, rfl⟩, by decide⟩

theorem witness_PrimitiveFailureEnds :
    let s := { answered 6#32 [{ ctxAt 56 with buf := blockZero.set 56 0xDA#8 }] (some 1#8) with opa := 200#64 }
    let x := { ctxAt 56 with buf := blockZero.set 56 0xDA#8 }
    operandsValid s (.boundedInt .w8 0) ∧ s.Drawable 0 x ∧
      (∀ k, k < 1 → ∃ r y ks, nthDraw k (s.working x) s.ksAnswer = .done r y ks ∧ outcomeOf s r (.boundedInt .w8 0) = none) ∧
      nthDraw 1 (s.working x) s.ksAnswer = .primFail { x with off := 64, failed := true } := by
  refine ⟨show 200 < 2 ^ 8 by decide, ⟨rfl, rfl, rfl⟩, ?_, by decide⟩
  intro k hk
  obtain rfl : k = 0 := by omega
  exact ⟨_, _, _, rfl, by decide⟩

theorem witness_PrimitiveFailureEnds_first :
    let s := answered 1#32 [ctxAt 64] (some 255#8)
    operandsValid s (.nextRaw64 0) ∧ s.Drawable 0 (ctxAt 64) ∧
      nthDraw 0 (s.working (ctxAt 64)) s.ksAnswer = .primFail { ctxAt 64 with failed := true } := by
  exact ⟨trivial, ⟨rfl, rfl, rfl⟩, by decide⟩

theorem witness_ReseedAutoWaits :
    (running 2#32 [unseeded]).ctxs[(0 : CtxIx).toNat]? = some unseeded ∧ unseeded.failed = false ∧
      (running 2#32 [unseeded]).entropyAnswer = none := ⟨rfl, rfl, rfl⟩

theorem witness_ReseedAutoSeeds_EntropyFailureEnds (a : EntropyAnswer) :
    let s := { running 2#32 [unseeded] with entropyAnswer := some a }
    s.ctxs[(0 : CtxIx).toNat]? = some unseeded ∧ unseeded.failed = false ∧ s.entropyAnswer = some a := ⟨rfl, rfl, rfl⟩

theorem witness_ReseedSeedSeeds :
    (seeding 44#32 [unseeded]).ctxs[(0 : CtxIx).toNat]? = some unseeded ∧ unseeded.failed = false ∧
      44 ≤ (seeding 44#32 [unseeded]).seedLen.toNat := ⟨rfl, rfl, by decide⟩

theorem witness_OperandValidation_seed :
    (seeding 43#32 [ctxAt 8]).ctxs[(0 : CtxIx).toNat]? = some (ctxAt 8) ∧ (ctxAt 8).failed = false ∧
      (seeding 43#32 [ctxAt 8]).seedLen.toNat < 44 := ⟨rfl, rfl, by decide⟩

theorem witness_OperandValidation_range :
    let s := { running 7#32 [ctxAt 0] with opa := 255#64, opb := 254#64 }
    s.opa.toNat < 2 ^ bitsOf .w8 ∧ s.opb.toNat < 2 ^ bitsOf .w8 ∧ s.Drawable 0 (ctxAt 0) ∧ s.opb.toNat < s.opa.toNat :=
  ⟨by decide, by decide, ⟨rfl, rfl, rfl⟩, by decide⟩

theorem witness_OperandValidation_alphabet :
    let s := { running 9#32 [ctxAt 0] with alphaLen := 0#32 }
    s.Drawable 0 (ctxAt 0) ∧ s.alphaLen = 0#32 := ⟨⟨rfl, rfl, rfl⟩, rfl⟩

/-- Both forms: another slot, and a slot into itself. -/
theorem witness_CloneCopies :
    let s := running 4#32 [ctxAt 24, unseeded]
    s.ctxs[(1 : CtxIx).toNat]? = some unseeded ∧ s.ctxs[(0 : CtxIx).toNat]? = some (ctxAt 24) ∧
      unseeded.failed = false ∧ (ctxAt 24).failed = false ∧ (ctxAt 24).seeded = true := ⟨rfl, rfl, rfl, rfl, rfl⟩

theorem witness_JumpAdvances : (running 5#32 [ctxAt 8]).Drawable 0 (ctxAt 8) := ⟨rfl, rfl, rfl⟩

theorem witness_RefillCount :
    (ctxAt 64).off.val % 8 = 0 ∧ (ctxAt 0).off.val % 8 = 0 ∧ 1 ≤ 9 := by decide

theorem witness_SameStreamSameDraws : SameStream (ctxAt 8) { ctxAt 8 with seeded := false } := ⟨rfl, rfl, rfl, rfl, rfl⟩

theorem witness_SameStreamSameCommand :
    let s := running 1#32 [ctxAt 8, ctxAt 8]
    (Instr.nextRaw64 0).draws = true ∧ SameInputs s s ∧ s.Drawable 0 (ctxAt 8) ∧ s.Drawable 1 (ctxAt 8) ∧
      SameStream (ctxAt 8) (ctxAt 8) ∧ SameStream (s.working (ctxAt 8)) (s.working (ctxAt 8)) ∧
      (∃ t, exec (retarget 0 (.nextRaw64 0)) s = .next t) ∧ ∃ u, exec (retarget 1 (.nextRaw64 0)) s = .next u :=
  ⟨rfl, ⟨rfl, rfl, rfl, rfl, rfl, rfl, rfl⟩, ⟨rfl, rfl, rfl⟩, ⟨rfl, rfl, rfl⟩, ⟨rfl, rfl, rfl, rfl, rfl⟩,
    ⟨rfl, rfl, rfl, rfl, rfl⟩, ⟨_, rfl⟩, ⟨_, rfl⟩⟩

/-- Two states in which the command goes on after its wait: on slot 0 of one, on slot 1 of the other. -/
theorem witness_SameStreamSameCommand_goesOn :
    let s := { answered 1#32 [ctxAt 64, unseeded] (some 0#8) with work := some (ctxAt 64) }
    let s' := { answered 0x10001#32 [broken, ctxAt 64] (some 0#8) with work := some (ctxAt 64) }
    SameInputs s s' ∧ s.Drawable 0 (ctxAt 64) ∧ s'.Drawable 1 (ctxAt 64) ∧
      SameStream (s.working (ctxAt 64)) (s'.working (ctxAt 64)) ∧
      (∃ t, exec (retarget 0 (.nextRaw64 0)) s = .next t) ∧ ∃ u, exec (retarget 1 (.nextRaw64 0)) s' = .next u :=
  ⟨⟨rfl, rfl, rfl, rfl, rfl, rfl, rfl⟩, ⟨rfl, rfl, rfl⟩, ⟨rfl, rfl, rfl⟩, ⟨rfl, rfl, rfl, rfl, rfl⟩, ⟨_, rfl⟩, ⟨_, rfl⟩⟩

theorem witness_ForkTwiceSameSubstream :
    let s := running 1#32 [ctxAt 8, unseeded, unseeded]
    s.Drawable 0 (ctxAt 8) ∧ (∃ y, s.ctxs[(1 : CtxIx).toNat]? = some y ∧ y.failed = false) ∧
      (∃ y, s.ctxs[(2 : CtxIx).toNat]? = some y ∧ y.failed = false) ∧
      ∃ s1 s2 s3 s4 x1 x2, exec (.clone 1 0) s = .next s1 ∧ exec (.jump 1) s1 = .next s2 ∧ exec (.clone 2 0) s2 = .next s3 ∧
        exec (.jump 2) s3 = .next s4 ∧ s4.ctxs[(1 : CtxIx).toNat]? = some x1 ∧ s4.ctxs[(2 : CtxIx).toNat]? = some x2 :=
  ⟨⟨rfl, rfl, rfl⟩, ⟨_, rfl, rfl⟩, ⟨_, rfl, rfl⟩, _, _, _, _, _, _, rfl, rfl, rfl, rfl, rfl, rfl⟩

theorem witness_JumpIsContinuation :
    let x := { ctxAt 64 with ctr := 0xFFFFFFFF#32 }
    x.ctr = 0xFFFFFFFF#32 ∧ 56 < x.off.val := by decide

/-- The fifth call of 95 P3: draw 0 (0xDA) is discarded, draw 1 (0x77) is accepted and gives 119. -/
theorem witness_BoundedIntCompletes :
    let s := { running 6#32 [ctxAt 32] with opa := 200#64 }
    s.opa.toNat < 2 ^ bitsOf .w8 ∧ s.Drawable 0 (ctxAt 32) ∧
      (∀ k, k < 1 → ∃ r' y ks', nthDraw k (s.working (ctxAt 32)) s.ksAnswer = .done r' y ks' ∧
        acceptDraw .w8 s.opa.toNat (r'.toNat % 2 ^ bitsOf .w8) = none) ∧
      ∃ r ks, nthDraw 1 (s.working (ctxAt 32)) s.ksAnswer = .done r (ctxAt 48) ks ∧
        acceptDraw .w8 s.opa.toNat (r.toNat % 2 ^ bitsOf .w8) = some 119 := by
  refine ⟨by decide, ⟨rfl, rfl, rfl⟩, ?_, 0x374AD8B83FE02477#64, none, ?_, ?_⟩
  · intro k hk
    obtain rfl : k = 0 := by omega
    exact ⟨_, _, _, rfl, by decide⟩
  · decide
  · decide

theorem witness_RangedIntCompletes :
    let s := { running 7#32 [ctxAt 0] with opa := 10#64, opb := 20#64 }
    s.opa.toNat ≤ s.opb.toNat ∧ s.opb.toNat < 2 ^ bitsOf .w8 ∧ s.Drawable 0 (ctxAt 0) ∧
      nthDraw 0 (s.working (ctxAt 0)) s.ksAnswer = .done 0x903DF1A0ADE0B876#64 (ctxAt 8) none ∧
      acceptDraw .w8 (s.opb.toNat - s.opa.toNat) ((0x903DF1A0ADE0B876#64).toNat % 2 ^ bitsOf .w8) = some 8 :=
  ⟨by decide, by decide, ⟨rfl, rfl, rfl⟩, by decide, by decide⟩

theorem witness_RandomCharCompletes :
    let s := running 9#32 [ctxAt 16]
    0 < s.alphaLen.toNat ∧ s.alphaLen.toNat ≤ s.alpha.length ∧ s.Drawable 0 (ctxAt 16) ∧
      nthDraw 0 (s.working (ctxAt 16)) s.ksAnswer = .done 0x1AED8DA0B819D2BD#64 (ctxAt 24) none ∧
      acceptDraw .w32 (s.alphaLen.toNat - 1) ((0x1AED8DA0B819D2BD#64).toNat % 2 ^ 32) = some 2 :=
  ⟨by decide, by decide, ⟨rfl, rfl, rfl⟩, by decide, by decide⟩

/-- A Ready context, and an Exhausted one with the answer. -/
theorem witness_UnitFloatCompletes :
    (running 8#32 [ctxAt 56]).Drawable 0 (ctxAt 56) ∧
      readyCtx ((running 8#32 [ctxAt 56]).working (ctxAt 56)) none = some (ctxAt 56) ∧
      readyCtx ((answered 8#32 [ctxAt 57] (some 0#8)).working (ctxAt 57)) (some 0#8) = some (refillCtx (ctxAt 57)) :=
  ⟨⟨rfl, rfl, rfl⟩, rfl, rfl⟩

theorem witness_F64Value : 0 < 1 ∧ 1 < 2 ^ 53 ∧ 0 < 2 ^ 53 - 1 ∧ 2 ^ 53 - 1 < 2 ^ 53 := by decide

theorem witness_RejectLimitLargest :
    3 ≤ 3 ∧ 255 ≤ 2 ^ bitsOf .w8 - 1 ∧ (¬ ∃ k, 3 = 2 ^ k) ∧ ¬ ∃ k, 255 = 2 ^ k := by
  refine ⟨by decide, by decide, ?_, ?_⟩
  · rintro ⟨k, h⟩
    rcases k with _ | k
    · cases h
    · rw [pow_succ] at h; omega
  · rintro ⟨k, h⟩
    rcases k with _ | k
    · cases h
    · rw [pow_succ] at h; omega

theorem witness_UniformPreimages : 200 < 2 ^ bitsOf .w8 ∧ 2 ^ 64 - 1 < 2 ^ bitsOf .w64 := by decide

theorem witness_SamplerInRange :
    seen (fun t => (t.phase, t.err)) (exec (.boundedInt .w8 0) { running 6#32 [ctxAt 0] with opa := 200#64 }) = some (.idle, 0#8) ∧
    seen (fun t => (t.phase, t.err)) (exec (.rangedInt .w8 0) { running 7#32 [ctxAt 0] with opa := 10#64, opb := 20#64 })
      = some (.idle, 0#8) ∧
    seen (fun t => (t.phase, t.err)) (exec (.randomChar 0) (running 9#32 [ctxAt 0])) = some (.idle, 0#8) := by decide

/-- Each of the three operand forms, one past its bound. -/
theorem witness_OperandMisfitEnds :
    ¬ operandsFit { running 6#32 [] with opa := 256#64 } (.boundedInt .w8 0) ∧
    ¬ operandsFit { running 7#32 [] with opb := 0x100000000#64 } (.rangedInt .w32 0) ∧
    ¬ operandsFit { running 9#32 [] with alphaLen := 5#32 } (.randomChar 0) := by
  simp [operandsFit, running, bitsOf]

/-- The largest operands at width 64 fit, and the command, on a slot the block has, ends with another code. -/
theorem witness_OperandMisfitEnds_fits :
    let s := { running 0x306#32 [unseeded] with opa := 0xFFFFFFFFFFFFFFFF#64 }
    (∀ c ∈ slotsNamed (.boundedInt .w64 0), c.toNat < s.ctxs.length) ∧ operandsFit s (.boundedInt .w64 0) ∧
      seen (fun t => (t.phase, t.err)) (exec (.boundedInt .w64 0) s) = some (.idle, 6#8) :=
  ⟨by decide, by unfold operandsFit; decide, by decide⟩

/-- A failed destination, and a failed source. -/
theorem witness_InstanceFailedEnds :
    let s := running 4#32 [broken, ctxAt 0]
    operandsFit s (.clone 0 1) ∧ (∀ c ∈ slotsNamed (.clone 0 1), c.toNat < s.ctxs.length) ∧
      (∃ c ∈ slotsNamed (.clone 0 1), ∃ x, s.ctxs[c.toNat]? = some x ∧ x.failed = true) ∧
      ∃ c ∈ slotsNamed (.clone 1 0), ∃ x, s.ctxs[c.toNat]? = some x ∧ x.failed = true := by
  refine ⟨trivial, by decide, ⟨0, by decide, broken, rfl, rfl⟩, ⟨0, by decide, broken, rfl, rfl⟩⟩

theorem witness_NotSeededEnds_only :
    seen (fun t => (t.phase, t.err)) (exec (.clone 0 1) (running 0x01000004#32 [ctxAt 0, unseeded])) = some (.idle, 6#8) := by
  decide

theorem witness_NotSeededEnds :
    let s := running 4#32 [ctxAt 0, unseeded]
    operandsFit s (.clone 0 1) ∧ (∀ d ∈ slotsNamed (.clone 0 1), ∃ y, s.ctxs[d.toNat]? = some y ∧ y.failed = false) ∧
      slotNeedsSeed (.clone 0 1) = some 1 ∧ s.ctxs[(1 : CtxIx).toNat]? = some unseeded ∧ unseeded.seeded = false := by
  refine ⟨trivial, ?_, rfl, rfl, rfl⟩
  intro d hd
  simp only [slotsNamed, List.mem_cons, List.not_mem_nil, or_false] at hd
  rcases hd with rfl | rfl
  · exact ⟨ctxAt 0, rfl, rfl⟩
  · exact ⟨unseeded, rfl, rfl⟩

theorem witness_ValidateBeforeMutate :
    seen (fun t => (t.phase, t.err)) (runCommand (running 1#32 [unseeded])) = some (.idle, 6#8) ∧
      seen (fun t => (t.phase, t.err)) (runCommand (running 0#32 [unseeded])) = some (.idle, 5#8) := by decide

theorem witness_ErrCodesInTable : (running 1#32 [ctxAt 0]).ErrInTable ∧ ∃ t, step (running 1#32 [ctxAt 0]) = .next t :=
  ⟨by unfold State.ErrInTable; decide, ⟨_, rfl⟩⟩

/-- A seeded slot, and a failed one, with a working copy in flight. -/
theorem witness_SeededFailedSticky :
    let s := { running 1#32 [ctxAt 64, broken] with work := some (ctxAt 64) }
    s.WorkUsable ∧ s.turns.head? ≠ some .reset ∧ (∃ t, step s = .next t) ∧ s.ctxs[0]? = some (ctxAt 64) ∧
      (ctxAt 64).seeded = true ∧ s.ctxs[1]? = some broken ∧ broken.failed = true := by
  refine ⟨?_, by decide, ⟨_, rfl⟩, rfl, rfl, rfl, rfl⟩
  intro x hx
  cases hx; exact ⟨rfl, rfl⟩

theorem witness_ExecFrameRegisters_ExecFrameSlots :
    ∃ t, exec (.nextRaw64 0) (running 1#32 [ctxAt 0]) = .next t ∧ t.result ≠ (running 1#32 [ctxAt 0]).result :=
  ⟨_, rfl, by decide⟩

/-- A draw from the buffer at a command's start. -/
theorem witness_DrawFrame :
    let s := running 1#32 [ctxAt 0]
    s.WorkOfSlot (.nextRaw64 0) ∧ s.ctxs[(0 : CtxIx).toNat]? = some (ctxAt 0) ∧
      (∃ t, exec (.nextRaw64 0) s = .next t ∧ t.ctxs[(0 : CtxIx).toNat]? = some (ctxAt 8)) ∧
      (Instr.nextRaw64 0).draws = true ∧ ctxAt 8 ≠ ctxAt 0 :=
  ⟨fun _ _ _ h => (nomatch h), rfl, ⟨_, rfl, by decide⟩, rfl, by decide⟩

/-- A command that goes on after its wait, on its working copy, and refills. -/
theorem witness_DrawFrame_goesOn :
    let s := { answered 1#32 [ctxAt 64] (some 0#8) with work := some (ctxAt 64) }
    s.WorkOfSlot (.nextRaw64 0) ∧ s.ctxs[(0 : CtxIx).toNat]? = some (ctxAt 64) ∧ s.ksAnswer = some 0#8 ∧
      ∃ t, exec (.nextRaw64 0) s = .next t ∧
        t.ctxs[(0 : CtxIx).toNat]? = some { refillCtx (ctxAt 64) with off := 8 } := by
  refine ⟨fun x z hx hz => ?_, rfl, rfl, _, rfl, rfl⟩
  cases hx; cases hz; exact ⟨rfl, rfl, rfl⟩

/-- A command that writes KEY. -/
theorem witness_DrawFrame_key :
    let s := seeding 44#32 [ctxAt 8]
    s.WorkOfSlot (.reseedSeed 0) ∧ s.ctxs[(0 : CtxIx).toNat]? = some (ctxAt 8) ∧
      ∃ t y, exec (.reseedSeed 0) s = .next t ∧ t.ctxs[(0 : CtxIx).toNat]? = some y ∧ y.key ≠ (ctxAt 8).key :=
  ⟨fun _ _ _ h => (nomatch h), rfl, _, _, rfl, rfl, by decide⟩

/-- Each way an access is not admitted, and an admitted reserved offset at each end of its range. -/
theorem witness_ReadsAndBusErrors :
    ((4 ≠ 8 ∨ 0 % 8 ≠ 0 ∨ 0x100000 ≤ 0) ∧ (8 ≠ 8 ∨ 4 % 8 ≠ 0 ∨ 0x100000 ≤ 4) ∧
      (8 ≠ 8 ∨ 0x100000 % 8 ≠ 0 ∨ 0x100000 ≤ 0x100000)) ∧ (0x50 % 8 = 0 ∧ 0xFFFF8 % 8 = 0 ∧ 0xFFFF8 < 0x100000) := by decide

theorem witness_BusyWriteDropped :
    let s := { running 1#32 [] with turns := [.host (.write 8 8 2#64)] }
    s.phase ≠ .idle ∧ 8 % 8 = 0 ∧ 8 < 0x100000 ∧ s.turns = .host (.write 8 8 2#64) :: [] := by decide

theorem witness_CmdWriteIssues :
    { resting [] with turns := [.host (.write 8 0 1#64)] }.phase = .idle ∧
      { resting [] with turns := [.host (.write 8 0 1#64)] }.turns = .host (.write 8 0 1#64) :: [] := by decide

/-- Both phases; the first and last offset of each clause that is a range. -/
theorem witness_HostWriteRule :
    (running 1#32 []).phase ≠ .idle ∧ (resting []).phase = .idle ∧
      (∀ off ∈ [0x00, 0x08, 0x18, 0x38, 0x100, 0x120, 0x128, 0x1000, 0x1018, 0x50, 0xF8, 0x130, 0xFF8, 0x1020, 0xFFFF8],
        off % 8 = 0 ∧ off < 0x100000) ∧
      0x120 = 0x100 + 8 * 4 ∧ 3 < (resting []).alpha.length ∧ 0x1018 = 0x1000 + 8 * 3 ∧
      0x1000 + 8 * (resting []).alpha.length ≤ 0x1020 := by decide

/-- The two ends of every clause do what their clause says. -/
theorem test_hostWrite_edges :
    (hostWrite (resting []) 0x120 7#64).seed[4] = 7#64 ∧ (hostWrite (resting []) 0x128 0x100000002#64).seed5 = 2#32 ∧
      (hostWrite (resting []) 0x1018 9#64).alpha = [0x61#32, 0x62#32, 0x63#32, 9#32] ∧
      hostWrite (resting []) 0x1020 9#64 = resting [] ∧ hostWrite (resting []) 0x130 9#64 = resting [] := by decide

theorem witness_WriteReadsBack :
    (resting []).phase = .idle ∧ hostRead (hostWrite (resting []) 0 0xFFFFFFFF00000001#64) 0 = 1#64 ∧ 3 < (resting []).alpha.length ∧ 0x1018 % 8 = 0 ∧ 0x1018 ≠ regOffset (.seed 5) := by decide

/-- 20_memory.md R56, R58: CMD and RESULT, each at its offset. -/
theorem test_read_cmd_result :
    hostRead { resting [] with cmd := 0xFFFFFFFF#32, result := 0x8000000000000001#64 } 0x00 = 0xFFFFFFFF#64 ∧
    hostRead { resting [] with cmd := 0xFFFFFFFF#32, result := 0x8000000000000001#64 } 0x10 = 0x8000000000000001#64 := by
  decide

theorem witness_ViewFields :
    { resting [ctxAt 57] with ctxSel := 0#8 }.ctxs[(0#8).toNat]? = some (ctxAt 57) ∧
      (resting [ctxAt 57]).ctxs.length ≤ { resting [ctxAt 57] with ctxSel := 1#8 }.ctxSel.toNat ∧
      (resting [ctxAt 57]).ParamsInRange := by
  refine ⟨rfl, by decide, ?_⟩
  simp [State.ParamsInRange, resting, running]

theorem witness_RegisterMap : 0x1018 % 8 = 0 ∧ regOffset (.alpha 3) = 0x1018 ∧ regAt 4 0x1018 = some (.alpha 3) ∧ regAt 3 0x1018 = none := by
  decide

/-- Two states that differ in their secrets. -/
theorem witness_SecretsUnreadable : SameButSecrets (resting [ctxAt 8]) (resting [{ ctxAt 8 with buf := Vector.replicate 64 1#8 }]) := by
  unfold SameButSecrets; decide

theorem witness_SecretsStaySecret :
    let s := running 5#32 [ctxAt 8]
    let t := running 5#32 [{ ctxAt 8 with buf := Vector.replicate 64 1#8 }]
    SameButSecrets s t ∧ ¬ (s.phase = .exec ∧ s.RunsDraw ∧ (s.turns = [] ∨ s.turns.head? = some .engine)) ∧
      (∃ s', step s = .next s') ∧ ∃ t', step t = .next t' := by
  refine ⟨by unfold SameButSecrets; decide, ?_, ⟨_, rfl⟩, ⟨_, rfl⟩⟩
  rintro ⟨-, ⟨i, hi, hd⟩, -⟩
  have : decode 1 5#32 = .ok (.jump 0) := by decide
  rw [show (running 5#32 [ctxAt 8]).ctxs.length = 1 from rfl, show (running 5#32 [ctxAt 8]).cmd = 5#32 from rfl, this] at hi
  cases hi; cases hd

theorem witness_BusyShowsOldValues :
    let s := { running 1#32 [ctxAt 64] with turns := [wr .opa 1#64] }
    s.phase ≠ .idle ∧ seen (fun t => t.phase) (step s) = some .exec ∧
      seen (fun t => t.phase) (step (running 1#32 [ctxAt 64])) = some .waitKeystream := by decide

theorem witness_AnswersReachTheRequest :
    let s := { running 1#32 [ctxAt 64] with phase := .waitKeystream, reqs := 1, turns := [.keystream 1 0#8] }
    s.turns = .keystream 1 0#8 :: [] ∧ seen (fun t => t.ksAnswer) (step s) = some (some 0#8) := by decide

theorem witness_AnswersReachTheRequest_late :
    let s := { running 2#32 [unseeded] with phase := .waitEntropy, reqs := 2, turns := [.entropy 1 .fail] }
    s.turns = .entropy 1 .fail :: [] ∧ seen (fun t => t.entropyAnswer) (step s) = some none := by decide

/-- A step that issues a request, and a reset during the wait that keeps the count. -/
theorem witness_AnswersReachTheRequest_count :
    seen (fun t => (t.phase, t.reqs)) (step { running 1#32 [ctxAt 64] with reqs := 3 }) = some (.waitKeystream, 4) ∧
    seen (fun t => (t.phase, t.reqs)) (step { running 1#32 [ctxAt 64] with phase := .waitKeystream, reqs := 4, turns := [.reset] })
      = some (.idle, 4) := by decide

theorem witness_ResetLeaves :
    { running 1#32 [broken] with turns := [.reset] }.turns = .reset :: [] := rfl

/-- A slot with unread bytes of the block of its most recent Refill, in both cases of R26, and a step. -/
theorem witness_StepKeepsProvenance :
    let x := { ctxAt 8 with buf := Config.keystreamBlock (ctxAt 8).key (ctxAt 8).nonce 0#32 }
    let y := { ctxAt 8 with ctr := 0#32, buf := Config.keystreamBlock (ctxAt 8).key (be96inv (be96 (ctxAt 8).nonce - 1#96)) 0xFFFFFFFF#32 }
    let s := running 1#32 [x, y]
    s.EveryCtx Ctx.Provenance ∧ x.off.val < 64 ∧ ∃ t, step s = .next t := by
  refine ⟨⟨?_, ?_⟩, by decide, ⟨_, rfl⟩⟩
  · intro z hz
    simp only [running, List.mem_cons, List.not_mem_nil, or_false] at hz
    rcases hz with rfl | rfl <;> intro _ <;> rfl
  · intro z hz; cases hz

theorem witness_StepKeepsCtxShape :
    let s := { running 1#32 [ctxAt 8, unseeded] with work := some (ctxAt 16) }
    s.WorkUsable ∧ s.EveryCtx Ctx.Aligned ∧ s.EveryCtx Ctx.FreshUntilSeeded ∧ ∃ t, step s = .next t := by
  have hw : ∀ P : Ctx → Prop, P (ctxAt 8) → P unseeded → P (ctxAt 16) →
      { running 1#32 [ctxAt 8, unseeded] with work := some (ctxAt 16) }.EveryCtx P := by
    intro P h1 h2 h3
    refine ⟨?_, ?_⟩
    · intro z hz
      simp only [running, List.mem_cons, List.not_mem_nil, or_false] at hz
      rcases hz with rfl | rfl
      · exact h1
      · exact h2
    · intro z hz; cases hz; exact h3
  refine ⟨?_, hw _ ?_ ?_ ?_, hw _ ?_ ?_ ?_, ⟨_, rfl⟩⟩
  · intro z hz; cases hz; exact ⟨rfl, rfl⟩
  · unfold Ctx.Aligned; decide
  · unfold Ctx.Aligned; decide
  · unfold Ctx.Aligned; decide
  · unfold Ctx.FreshUntilSeeded; decide
  · unfold Ctx.FreshUntilSeeded; decide
  · unfold Ctx.FreshUntilSeeded; decide

/-- A command waiting for its block with one draw made. -/
theorem witness_StepKeepsCoherent :
    let s := { running 1#32 [ctxAt 64] with phase := .waitKeystream, work := some (ctxAt 64), turns := [.keystream 0 0#8] }
    s.Coherent ∧ s.WorkAgrees ∧ ∃ t, step s = .next t := by
  have hd : decode 1 1#32 = .ok (.nextRaw64 0) := by decide
  have hr : { running 1#32 [ctxAt 64] with phase := .waitKeystream, work := some (ctxAt 64), turns := [.keystream 0 0#8] }.RunsDraw :=
    ⟨.nextRaw64 0, hd, rfl⟩
  refine ⟨⟨fun h => (nomatch h), fun h => (nomatch h), fun _ => ⟨hr, rfl, rfl⟩, fun _ => hr, fun h => (nomatch h)⟩, fun i hi x z hx hz => ?_, ⟨_, rfl⟩⟩
  cases hd.symm.trans hi
  cases hx; cases hz; exact ⟨rfl, rfl, rfl⟩

end Sys2Proof.Tests
end

section
/-! The byte orders of 00_scope.md R10 as sums of bytes. -/

namespace Sys2Proof.Machine

/-- LE64 over the buffer's own bytes: up to offset 56 no byte of a draw lies outside the buffer (20_memory.md R65). -/
theorem le64At_toNat_of_le (b : Block) (o : Nat) (h : o ≤ 56) :
    (le64At b o).toNat = b[o].toNat + 2 ^ 8 * b[o + 1].toNat + 2 ^ 16 * b[o + 2].toNat + 2 ^ 24 * b[o + 3].toNat
      + 2 ^ 32 * b[o + 4].toNat + 2 ^ 40 * b[o + 5].toNat + 2 ^ 48 * b[o + 6].toNat + 2 ^ 56 * b[o + 7].toNat := by
  rw [le64At_toNat]
  simp (disch := omega) only [bufByte_of_lt]
  ring

/-- BE96 with each byte at its power of two, `n[11]` least significant: the Horner form of `be96_toNat` multiplied out. -/
theorem be96_toNat_eq_sum (n : Nonce) :
    (be96 n).toNat = n[11].toNat + 2 ^ 8 * n[10].toNat + 2 ^ 16 * n[9].toNat + 2 ^ 24 * n[8].toNat + 2 ^ 32 * n[7].toNat
      + 2 ^ 40 * n[6].toNat + 2 ^ 48 * n[5].toNat + 2 ^ 56 * n[4].toNat + 2 ^ 64 * n[3].toNat + 2 ^ 72 * n[2].toNat
      + 2 ^ 80 * n[1].toNat + 2 ^ 88 * n[0].toNat := by
  rw [be96_toNat]
  ring

/-- Settles O8: LE64 and BE96 as sums, and BE96inv as the inverse of BE96 on both sides. -/
theorem byteOrders : Obligations.ByteOrders :=
  ⟨le64At_toNat_of_le, be96_toNat_eq_sum, be96inv_be96, be96_be96inv⟩

end Sys2Proof.Machine
end

section
/-! The host port: what the window answers and what it shows (20_memory.md R52, R53, R55, R67; 60_exceptions.md R201). -/

namespace Sys2Proof.Machine

/-! ## What a running command leaves visible -/

/-- `t` differs from `s` at most in what no register but STATUS shows: OVR, the sequencer's own fields, the coming turns and
the last reply. -/
def SameShown (s t : State) : Prop :=
  t = { s with ovr := t.ovr, phase := t.phase, work := t.work, ksAnswer := t.ksAnswer,
               entropyAnswer := t.entropyAnswer, reqs := t.reqs, turns := t.turns, reply := t.reply }

/-- Every register but STATUS reads the same (20_memory.md R55 to R64). -/
theorem SameShown.readReg_eq {s t : State} (h : SameShown s t) (r : Reg) (hr : r ≠ .status) :
    readReg t r = readReg s r := by
  rw [h]
  cases r with
  | status => exact absurd rfl hr
  | _ => rfl

/-- Every aligned offset but that of STATUS reads the same (20_memory.md R51, R55). -/
theorem SameShown.hostRead_eq {s t : State} (h : SameShown s t) {off : Nat} (h8 : off % 8 = 0) (hs : off ≠ 8) :
    hostRead t off = hostRead s off := by
  refine hostRead_congr t s off (by rw [h]) fun r hr => h.readReg_eq r ?_
  rintro rfl
  exact hs (regAt_offset h8 hr).1.symm

/-- A command that has not completed has written nothing the host sees (20_memory.md R67). -/
theorem exec_sameShown {i : Instr} {s t : State} (h : exec i s = .next t) (hb : t.phase ≠ .idle) : SameShown s t := by
  cases exec_cases h with
  | request => rfl
  | draw x d hd hx hm keeps =>
    cases d with
    | waitKs z => rfl
    | more z k => rfl
    | done v z k => exact absurd rfl hb
    | primFail z => exact absurd rfl hb
  | error e => exact absurd rfl hb
  | entropyFail c x => exact absurd rfl hb
  | noop c => exact absurd rfl hb
  | write x z => exact absurd rfl hb

/-- While BUSY is 1 a host access reaches no register but STATUS (20_memory.md R54). -/
theorem hostAccess_sameShown (a : HostAccess) {s : State} (hb : s.phase ≠ .idle) : SameShown s (hostAccess a s) := by
  generalize ht : hostAccess a s = t
  have hc := host_cases a s
  rw [ht] at hc
  cases hc with
  | reply r => rfl
  | ovr b => rfl
  | issue w hi => exact absurd hi hb
  | reg r v hi hr => exact absurd hi hb

/-- A step that starts and ends with BUSY 1 changes nothing the host sees but STATUS (20_memory.md R67). -/
theorem step_sameShown {s t : State} (hs : s.phase ≠ .idle) (h : step s = .next t) (ht : t.phase ≠ .idle) :
    SameShown s t := by
  cases step_cases h with
  | run u t i hu hm hp hd he =>
    rcases hu with rfl | ⟨ts, _, rfl⟩
    · exact exec_sameShown he ht
    · exact exec_sameShown (s := { s with turns := ts }) he ht
  | illegal u r hu => exact absurd rfl ht
  | hold u hu => rcases hu with rfl | ⟨ts, _, rfl⟩ <;> rfl
  | host a ts h0 => exact hostAccess_sameShown a (s := { s with turns := ts }) hs
  | keystream q st ts h0 => unfold keystreamTurn; split <;> rfl
  | entropy q e ts h0 => unfold entropyTurn; split <;> rfl
  | reset ts h0 => exact absurd rfl ht

/-- Settles O54: such a step keeps all that the registers but STATUS show, and ERR and the slots with it. -/
theorem busyShowsOldValues : Obligations.BusyShowsOldValues := by
  intro s t hs h ht
  have hk : SameShown s t := step_sameShown hs h ht
  exact ⟨fun off h8 hoff => hk.hostRead_eq h8 hoff, by rw [hk], by rw [hk]⟩

/-! ## Bus errors, reads, reserved offsets -/

/-- The Host's turn is its access (00_scope.md R4). -/
theorem step_host {s : State} {a : HostAccess} {ts : List Turn} (h : s.turns = .host a :: ts) :
    step s = .next (hostAccess a { s with turns := ts }) := by
  simp [step, nextTurn, h, agentTurn]

/-- What the window refuses: another size, an unaligned offset, an offset beyond it (20_memory.md R52). -/
theorem admitted_eq_false_iff (size off : Nat) :
    admitted size off = false ↔ size ≠ 8 ∨ off % 8 ≠ 0 ∨ 0x100000 ≤ off := by
  simp only [admitted, decide_eq_false_iff_not]
  omega

/-- A refused read is answered with a bus error and nothing else changes (60_exceptions.md R201). -/
theorem hostAccess_read_refused {size off : Nat} (s : State) (h : admitted size off = false) :
    hostAccess (.read size off) s = { s with reply := .busError } := by
  simp [hostAccess, h]

/-- A refused write is answered with a bus error and nothing else changes (60_exceptions.md R201). -/
theorem hostAccess_write_refused {size off : Nat} (v : Word) (s : State) (h : admitted size off = false) :
    hostAccess (.write size off v) s = { s with reply := .busError } := by
  simp [hostAccess, h]

/-- An admitted read is answered with the value and nothing else changes (20_memory.md R55). -/
theorem hostAccess_read_admitted {off : Nat} (s : State) (h8 : off % 8 = 0) (hlt : off < 0x100000) :
    hostAccess (.read 8 off) s = { s with reply := .data (hostRead s off) } := by
  simp [hostAccess, admitted, h8, hlt]

/-- No register stands between the control registers and the seed, between the seed and the alphabet, or past the alphabet's
last entry (20_memory.md R51, R53). -/
theorem regAt_reserved {cap off : Nat}
    (h : (0x50 ≤ off ∧ off < 0x100) ∨ (0x130 ≤ off ∧ off < 0x1000) ∨ 0x1000 + 8 * cap ≤ off) : regAt cap off = none := by
  unfold regAt
  rw [if_neg (by omega), if_neg (by omega), if_neg (by omega)]

/-- An offset without a register reads 0 (20_memory.md R53). -/
theorem hostRead_of_regAt_none {s : State} {off : Nat} (h : regAt s.alpha.length off = none) : hostRead s off = 0#64 := by
  simp [hostRead, h]

/-- Settles O45: the Host's turn with a refused access, with an admitted read, and what a reserved offset reads as. -/
theorem readsAndBusErrors : Obligations.ReadsAndBusErrors := by
  refine ⟨fun s ts size off v hbad => ?_, fun s ts off h8 hlt hturn => ⟨?_, fun hres => ?_⟩⟩
  · have hn : admitted size off = false := (admitted_eq_false_iff size off).2 hbad
    constructor <;> intro hturn
    · rw [step_host hturn, hostAccess_read_refused _ hn]
    · rw [step_host hturn, hostAccess_write_refused _ _ hn]
  · rw [step_host hturn, hostAccess_read_admitted _ h8 hlt]
    rfl
  · exact hostRead_of_regAt_none (regAt_reserved hres)

end Sys2Proof.Machine
end

section
/-! Operand fit and code 5 (30_encoding.md R87; 60_exceptions.md R190): a command that does not get past the fit of its
operands ends with IllegalCommand at once, and one that does never ends with it. -/

namespace Sys2Proof.Machine

/-! ## Operands that do not fit -/

/-- The test the datapath makes of OPA and OPB (30_encoding.md R87). -/
theorem fits_iff (w : Width) (v : Word) : fits w v = true ↔ v.toNat < 2 ^ bitsOf w := by simp [fits]

/-- An operand register has 64 bits, so width 64 takes all of it (30_encoding.md R87). -/
theorem toNat_lt_two_pow_bitsOf_w64 (v : Word) : v.toNat < 2 ^ bitsOf .w64 := v.isLt

/-- The fit is tested before the context: a misfit raises IllegalCommand whatever the slots hold (30_encoding.md R87). -/
theorem exec_of_not_operandsFit {i : Instr} {s : State} (h : ¬ operandsFit s i) :
    exec i s = .next (raise .illegalCommand s) := by
  cases i with
  | boundedInt w c =>
    have hbad : ¬ fits w s.opa = true := fun hf => h ((fits_iff w s.opa).1 hf)
    rw [exec, execBoundedInt, if_neg hbad]
  | rangedInt w c =>
    have hbad : ¬ (fits w s.opa && fits w s.opb) = true := fun hf => by
      rw [Bool.and_eq_true, fits_iff, fits_iff] at hf
      exact h hf
    rw [exec, execRangedInt, if_neg hbad]
  | randomChar c =>
    have hbad : s.alpha.length < s.alphaLen.toNat := Nat.lt_of_not_le h
    rw [exec, execRandomChar, if_pos hbad]
  | nextRaw64 c => exact absurd trivial h
  | reseedAuto c => exact absurd trivial h
  | reseedSeed c => exact absurd trivial h
  | clone d c => exact absurd trivial h
  | jump c => exact absurd trivial h
  | unitFloat c => exact absurd trivial h

/-! ## Past the fit, code 5 does not occur -/

/-- If a command has ended in `t`, it was not with IllegalCommand. -/
def NotIllegalEnd (t : State) : Prop := t.phase = .idle → t.err ≠ 5#8

/-- IllegalCommand is the only error whose code is 5 (60_exceptions.md R181). -/
theorem Err.code_ne_five {e : Err} (he : e ≠ .illegalCommand) : e.code ≠ 5#8 := by
  cases e with
  | illegalCommand => exact absurd rfl he
  | _ => decide

theorem notIllegalEnd_raise {e : Err} (he : e ≠ .illegalCommand) (s : State) : NotIllegalEnd (raise e s) :=
  fun _ => Err.code_ne_five he

theorem notIllegalEnd_complete_zero (v : Option Word) (s : State) : NotIllegalEnd (complete 0#8 v s) :=
  fun _ => by simp

/-- Draws end a command normally or with PrimitiveFailure, or have not ended it (41_sampler.md R145). -/
theorem notIllegalEnd_finishDraw (c : CtxIx) (d : Draw Word) (s : State) : NotIllegalEnd (finishDraw c d s) := by
  cases d with
  | done v x k => exact notIllegalEnd_complete_zero _ _
  | primFail x => exact notIllegalEnd_raise (by decide) _
  | waitKs x => exact fun hp => nomatch hp
  | more x k => exact fun hp => nomatch hp

/-- On a slot the block has, looking it up raises nothing (30_encoding.md R88 items 5 and 6). -/
theorem notIllegalEnd_onContext {c : CtxIx} {s : State} {k : Ctx → State} (hc : c.toNat < s.ctxs.length)
    (h : ∀ x, NotIllegalEnd (k x)) : NotIllegalEnd (onContext c s k) := by
  rw [onContext_of (List.getElem?_eq_getElem hc)]
  exact h _

/-- CheckDrawable raises InstanceFailed and NotSeeded only (40_engine.md R101). -/
theorem drawableError_ne_illegalCommand (x : Ctx) : drawableError x ≠ some .illegalCommand := by
  unfold drawableError
  split
  · decide
  · split <;> decide

theorem notIllegalEnd_onDrawable {c : CtxIx} {s : State} {k : Ctx → State} (hc : c.toNat < s.ctxs.length)
    (h : ∀ x, NotIllegalEnd (k x)) : NotIllegalEnd (onDrawable c s k) := by
  refine notIllegalEnd_onContext hc fun x => ?_
  split
  · rename_i e he
    exact notIllegalEnd_raise (fun h5 => drawableError_ne_illegalCommand x (h5 ▸ he)) s
  · exact h x

/-- A command whose operands fit and whose slots the block has never ends with code 5. -/
theorem exec_notIllegalEnd {i : Instr} {s t : State} (hs : ∀ c ∈ slotsNamed i, c.toNat < s.ctxs.length)
    (hfit : operandsFit s i) (h : exec i s = .next t) : NotIllegalEnd t := by
  have hctx : i.ctx.toNat < s.ctxs.length := hs i.ctx (by cases i <;> exact .head _)
  cases i with
  | nextRaw64 c =>
    cases h
    exact notIllegalEnd_onDrawable hctx fun x => notIllegalEnd_finishDraw _ _ _
  | unitFloat c =>
    cases h
    exact notIllegalEnd_onDrawable hctx fun x => notIllegalEnd_finishDraw _ _ _
  | jump c =>
    cases h
    exact notIllegalEnd_onDrawable hctx fun x => notIllegalEnd_complete_zero _ _
  | boundedInt w c =>
    have hf : fits w s.opa = true := (fits_iff w s.opa).2 hfit
    rw [exec, execBoundedInt, if_pos hf] at h
    cases h
    exact notIllegalEnd_onDrawable hctx fun x => notIllegalEnd_finishDraw _ _ _
  | rangedInt w c =>
    have hf : (fits w s.opa && fits w s.opb) = true := by
      rw [Bool.and_eq_true, fits_iff, fits_iff]
      exact hfit
    rw [exec, execRangedInt, if_pos hf] at h
    cases h
    refine notIllegalEnd_onDrawable hctx fun x => ?_
    split
    · exact notIllegalEnd_raise (by decide) s
    · exact notIllegalEnd_finishDraw _ _ _
  | randomChar c =>
    have hf : ¬ s.alpha.length < s.alphaLen.toNat := Nat.not_lt_of_le hfit
    rw [exec, execRandomChar, if_neg hf] at h
    cases h
    refine notIllegalEnd_onDrawable hctx fun x => ?_
    split
    · exact notIllegalEnd_raise (by decide) s
    · exact notIllegalEnd_finishDraw _ _ _
  | reseedAuto c =>
    cases h
    refine notIllegalEnd_onContext hctx fun x => ?_
    split
    · exact notIllegalEnd_raise (by decide) s
    split
    · exact fun hp => nomatch hp
    · exact notIllegalEnd_raise (by decide) _
    · exact notIllegalEnd_complete_zero _ _
  | reseedSeed c =>
    cases h
    refine notIllegalEnd_onContext hctx fun x => ?_
    split
    · exact notIllegalEnd_raise (by decide) s
    split
    · exact notIllegalEnd_raise (by decide) s
    · exact notIllegalEnd_complete_zero _ _
  | clone d src =>
    have hsrc : src.toNat < s.ctxs.length := hs src (.tail _ (.head _))
    cases h
    refine notIllegalEnd_onContext hctx fun xd => notIllegalEnd_onContext hsrc fun xs => ?_
    split
    · exact notIllegalEnd_raise (by decide) s
    split
    · exact notIllegalEnd_raise (by decide) s
    split
    · exact notIllegalEnd_complete_zero _ _
    · exact notIllegalEnd_complete_zero _ _

/-- Settles O36: a misfit ends with code 5 and writes nothing else; at width 64 there is none; past the fit no command on
slots the block has ends with code 5. -/
theorem operandMisfitEnds : Obligations.OperandMisfitEnds := by
  refine ⟨fun i s h => ?_, fun c s => ?_, fun i s t hs hfit h => exec_notIllegalEnd hs hfit h⟩
  · rw [exec_of_not_operandsFit h, raise_eq]
    rfl
  · exact ⟨toNat_lt_two_pow_bitsOf_w64 s.opa, toNat_lt_two_pow_bitsOf_w64 s.opa, toNat_lt_two_pow_bitsOf_w64 s.opb⟩

end Sys2Proof.Machine
end

section
/-! NonceInc byte by byte (40_engine.md R100): the loop that carries from byte 11 towards byte 0 adds one to BE96 and
discards the carry out of byte 0. -/

namespace Sys2Proof.Machine

/-- Byte i of a nonce has the weight 256^(11 - i) in BE96 (00_scope.md R10). -/
theorem be96_setIfInBounds_add (n : Nonce) (b : Byte) {i : Nat} (hi : i < 12) :
    (be96 (n.setIfInBounds i b)).toNat + n[i].toNat * 256 ^ (11 - i) = (be96 n).toNat + b.toNat * 256 ^ (11 - i) := by
  interval_cases i <;> simp [be96_toNat] <;> omega

/-- At byte 0 the loop ends, carry or not. -/
theorem carryInc_zero (n : Nonce) : carryInc 0 n = n.setIfInBounds 0 (n[0] + 1#8) := rfl

/-- At a byte that becomes 0 the loop goes on to the byte before it; at any other byte it ends. -/
theorem carryInc_succ (n : Nonce) {i : Nat} (hi : i + 1 < 12) :
    carryInc (i + 1) n = if n[i + 1] + 1#8 = 0#8 then carryInc i (n.setIfInBounds (i + 1) 0#8)
      else n.setIfInBounds (i + 1) (n[i + 1] + 1#8) := by
  have hget : n[i + 1]?.getD 0#8 = n[i + 1] := by simp [hi]
  rw [carryInc, hget]
  split
  case isTrue hcarry => rw [hcarry]
  case isFalse => rfl

/-- The loop from byte i down adds the weight of byte i modulo 2^96: a carry into byte i - 1 is worth 256 times as much. -/
theorem be96_carryInc (n : Nonce) {i : Nat} (hi : i < 12) :
    (be96 (carryInc i n)).toNat ≡ (be96 n).toNat + 256 ^ (11 - i) [MOD 2 ^ 96] := by
  induction i generalizing n with
  | zero =>
    have hset := be96_setIfInBounds_add n (n[0] + 1#8) hi
    have hbyte : (n[0] + 1#8).toNat = (n[0].toNat + 1) % 256 := BitVec.toNat_add ..
    rw [carryInc_zero, Nat.ModEq]
    omega
  | succ i ih =>
    rw [carryInc_succ n hi]
    split
    case isTrue hcarry =>
      have hset := be96_setIfInBounds_add n 0#8 hi
      have hbyte : n[i + 1].toNat = 255 := by bv_omega
      have hpow : 256 ^ (11 - i) = 256 * 256 ^ (11 - (i + 1)) := by
        rw [← Nat.pow_succ', show 11 - i = (11 - (i + 1)).succ by omega]
      rw [hbyte, BitVec.toNat_zero, Nat.zero_mul] at hset
      have hsum : (be96 (n.setIfInBounds (i + 1) 0#8)).toNat + 256 ^ (11 - i)
          = (be96 n).toNat + 256 ^ (11 - (i + 1)) := by omega
      exact hsum ▸ ih _ (by omega)
    case isFalse hcarry =>
      have hset := be96_setIfInBounds_add n (n[i + 1] + 1#8) hi
      have hbyte : (n[i + 1] + 1#8).toNat = n[i + 1].toNat + 1 := by bv_omega
      rw [hbyte, Nat.add_one_mul] at hset
      have hsum : (be96 (n.setIfInBounds (i + 1) (n[i + 1] + 1#8))).toNat
          = (be96 n).toNat + 256 ^ (11 - (i + 1)) := by omega
      rw [hsum]

/-- Settles O21: the value is that of `be96_nonceInc`; the loop from byte 11 has the same value, and BE96 is injective. -/
theorem nonceIncByBytes : Obligations.NonceIncByBytes := by
  intro n
  refine ⟨be96_nonceInc n, be96_inj (BitVec.eq_of_toNat_eq ?_)⟩
  have hloop : (be96 (carryInc 11 n)).toNat % 2 ^ 96 = ((be96 n).toNat + 1) % 2 ^ 96 := be96_carryInc n (by decide)
  rw [be96_nonceInc, ← hloop, Nat.mod_eq_of_lt (be96 (carryInc 11 n)).isLt]

end Sys2Proof.Machine
end

section
/-! Commands that complete with a draw (41_sampler.md R145): what the slot and RESULT are when a draw is accepted after
draws that were all discarded. -/

namespace Sys2Proof.Machine

/-- A command that draws completes with the outcome of the first draw it does not discard, and the slot is as that draw
left it (41_sampler.md R145). -/
theorem exec_of_accepted_draw {i : Instr} {s : State} {x z : Ctx} {j : Nat} {r v : Word} {ks : Option (BitVec 8)}
    (hi : i.draws = true) (hv : operandsValid s i) (hx : s.Drawable i.ctx x)
    (hdiscarded : ∀ k, k < j → ∃ r y ks, nthDraw k (s.working x) s.ksAnswer = .done r y ks ∧ outcomeOf s r i = none)
    (hdraw : nthDraw j (s.working x) s.ksAnswer = .done r z ks) (haccepted : outcomeOf s r i = some v) :
    exec i s = .next (s.endedResult i.ctx z v) := by
  obtain ⟨d, hexec, hdone, -, -⟩ := exec_draw i s x j hi hv hx hdiscarded
  rw [hexec, hdone r z ks v hdraw haccepted, finishDraw, complete_some]

/-- BOUNDED_INT makes of a raw draw what the policy makes of its low bits, zero-extended (41_sampler.md R146). -/
theorem outcomeOf_boundedInt (s : State) (r : Word) (w : Width) (c : CtxIx) :
    outcomeOf s r (.boundedInt w c)
      = (acceptDraw w s.opa.toNat (r.toNat % 2 ^ bitsOf w)).map (BitVec.ofNat 64) := rfl

/-- Settles O28: `exec_of_accepted_draw` for BOUNDED_INT, whose outcome is the policy's for maxInclusive OPA. -/
theorem boundedIntCompletes : Obligations.BoundedIntCompletes := by
  intro w c s x z j v r ks hfit hx hdiscarded hdraw haccepted
  refine exec_of_accepted_draw (i := .boundedInt w c) rfl hfit hx (fun k hk => ?_) hdraw ?_
  · obtain ⟨r', y, ks', hdraw', hrejected⟩ := hdiscarded k hk
    refine ⟨r', y, ks', hdraw', ?_⟩
    rw [outcomeOf_boundedInt, hrejected, Option.map_none]
  · rw [outcomeOf_boundedInt, haccepted, Option.map_some]

end Sys2Proof.Machine
end

section
/-! Words that do not run (60_exceptions.md R190): the Engine's turn on a word that fails decoding, and on a command whose
operands do not fit. -/

namespace Sys2Proof.Machine

/-- In phase Exec the Engine's turn runs the latched word; the turn is taken off the list (20_memory.md R63). -/
theorem step_engine_exec {s : State} {ts : List Turn} (hp : s.phase = .exec) (h : s.turns = .engine :: ts) :
    step s = runCommand { s with turns := ts } := by
  simp [step, nextTurn, h, agentTurn, engineTurn, hp]

/-- A word that fails decoding ends with IllegalCommand (30_encoding.md R93). -/
theorem runCommand_of_illegal {s : State} {r : Illegal} (h : decode s.ctxs.length s.cmd = .illegal r) :
    runCommand s = .next (raise .illegalCommand s) := by
  simp only [runCommand, h]

/-- A word that decodes runs the command it decodes to (20_memory.md R63). -/
theorem runCommand_of_ok {s : State} {i : Instr} (h : decode s.ctxs.length s.cmd = .ok i) : runCommand s = exec i s := by
  simp only [runCommand, h]

/-- Settles O6: the word ends with IllegalCommand by the decoder or by the fit of its operands, and no slot is looked up. -/
theorem illegalWordEnds : Obligations.IllegalWordEnds := by
  intro s ts hp hts hbad
  refine ⟨_, ?_, rfl, State.endedWith_cmd _ _⟩
  have hraise : runCommand { s with turns := ts } = .next (raise .illegalCommand { s with turns := ts }) := by
    rcases hbad with ⟨r, hdec⟩ | ⟨i, hdec, hfit⟩
    · exact runCommand_of_illegal hdec
    · exact (runCommand_of_ok (s := { s with turns := ts }) hdec).trans (exec_of_not_operandsFit hfit)
  rw [step_engine_exec hp hts, hraise, raise_eq]
  rfl

end Sys2Proof.Machine
end

section
/-! The checks a command makes of its slots, in the priority of 60_exceptions.md R184: past the fit of its operands a failed
slot comes first (R188), then an unseeded slot it reads key material from (R189), then everything else. -/

namespace Sys2Proof.Machine

/-- Every slot the command names is a slot of the block that has not failed. -/
def State.SlotsUsable (s : State) (i : Instr) : Prop :=
  ∀ c ∈ slotsNamed i, ∃ x, s.ctxs[c.toNat]? = some x ∧ x.failed = false

/-- A named slot, looked up, is one of them. -/
theorem State.SlotsUsable.failed_eq_false {s : State} {i : Instr} {c : CtxIx} {x : Ctx} (h : s.SlotsUsable i)
    (hc : c ∈ slotsNamed i) (hx : s.ctxs[c.toNat]? = some x) : x.failed = false := by
  obtain ⟨y, hy, hf⟩ := h c hc
  rw [hx] at hy
  cases hy
  exact hf

/-- A command that names one slot only. -/
theorem slotsUsable_of_singleton {s : State} {i : Instr} {c : CtxIx} {x : Ctx} (hn : slotsNamed i = [c])
    (hx : s.ctxs[c.toNat]? = some x) (hf : x.failed = false) : s.SlotsUsable i := by
  rw [State.SlotsUsable, hn, List.forall_mem_singleton]
  exact ⟨x, hx, hf⟩

/-- If a command has ended in `t`, it was with none of the codes of operand fit and slot checks (60_exceptions.md R181). -/
def PastSlotChecks (t : State) : Prop := t.phase = .idle → t.err ∉ [5#8, 6#8, 8#8]

/-- An end with another code, by `complete` or by `raise`. -/
theorem pastSlotChecks_complete {code : BitVec 8} (h : code ∉ [5#8, 6#8, 8#8]) (v : Option Word) (s : State) :
    PastSlotChecks (complete code v s) := fun _ => h

/-- Draws end a command normally or with PrimitiveFailure, or have not ended it (41_sampler.md R145). -/
theorem pastSlotChecks_finishDraw (c : CtxIx) (d : Draw Word) (s : State) : PastSlotChecks (finishDraw c d s) := by
  cases d with
  | done v x k => exact pastSlotChecks_complete (by decide) _ _
  | primFail x => exact pastSlotChecks_complete (by decide) _ _
  | waitKs x => exact fun hp => nomatch hp
  | more x k => exact fun hp => nomatch hp

/-- What the slot checks of command `i` in state `s` can come to, with what each outcome says of the slots. -/
inductive SlotChecked (i : Instr) (s : State) : State → Prop
  /-- a named slot the block does not have, which a decoded word never names (30_encoding.md R88 items 5 and 6) -/
  | missing (c : CtxIx) (hc : c ∈ slotsNamed i) (hx : s.ctxs[c.toNat]? = none) : SlotChecked i s (raise .illegalCommand s)
  /-- a named slot has failed (60_exceptions.md R188) -/
  | failed (c : CtxIx) (x : Ctx) (hc : c ∈ slotsNamed i) (hx : s.ctxs[c.toNat]? = some x) (hf : x.failed = true) :
      SlotChecked i s (raise .instanceFailed s)
  /-- none has, and the one that must be seeded is not (60_exceptions.md R189) -/
  | unseeded (c : CtxIx) (x : Ctx) (hu : s.SlotsUsable i) (hc : slotNeedsSeed i = some c) (hx : s.ctxs[c.toNat]? = some x)
      (hs : x.seeded = false) : SlotChecked i s (raise .notSeeded s)
  /-- the checks passed, and the command went on -/
  | passed (t : State) (hu : s.SlotsUsable i)
      (hs : ∀ c x, slotNeedsSeed i = some c → s.ctxs[c.toNat]? = some x → x.seeded = true) (ht : PastSlotChecks t) :
      SlotChecked i s t

/-- Looking up a named slot finds it, or it is missing. -/
theorem slotChecked_onContext {i : Instr} {s : State} {c : CtxIx} {k : Ctx → State} (hc : c ∈ slotsNamed i)
    (h : ∀ x, s.ctxs[c.toNat]? = some x → SlotChecked i s (k x)) : SlotChecked i s (onContext c s k) := by
  unfold onContext
  split
  · exact .missing c hc ‹_›
  · exact h _ ‹_›

/-- A command that names one slot and needs it seeded makes its checks by CheckDrawable (40_engine.md R101). -/
theorem slotChecked_onDrawable {i : Instr} {s : State} {c : CtxIx} {k : Ctx → State} (hn : slotsNamed i = [c])
    (hneed : slotNeedsSeed i = some c) (h : ∀ x, PastSlotChecks (k x)) : SlotChecked i s (onDrawable c s k) := by
  have hc : c ∈ slotsNamed i := hn ▸ .head _
  refine slotChecked_onContext hc fun x hx => ?_
  cases hf : x.failed with
  | true =>
    simp only [drawableError, hf, if_true]
    exact .failed c x hc hx hf
  | false =>
    have hu : s.SlotsUsable i := slotsUsable_of_singleton hn hx hf
    cases hs : x.seeded with
    | false =>
      simp only [drawableError, hf, hs, Bool.false_eq_true, if_false]
      exact .unseeded c x hu hneed hx hs
    | true =>
      simp only [drawableError, hf, hs, Bool.false_eq_true, if_false, if_true]
      refine .passed _ hu (fun d y hd hy => ?_) (h x)
      rw [hneed] at hd
      cases hd
      rw [hx] at hy
      cases hy
      exact hs

/-- A command that names one slot and needs none seeded checks FAILED only (40_engine.md R106, R107). -/
theorem slotChecked_reseed {i : Instr} {s : State} {c : CtxIx} {k : Ctx → State} (hn : slotsNamed i = [c])
    (hneed : slotNeedsSeed i = none) (h : ∀ x, PastSlotChecks (k x)) :
    SlotChecked i s (onContext c s fun x => if x.failed then raise .instanceFailed s else k x) := by
  have hc : c ∈ slotsNamed i := hn ▸ .head _
  refine slotChecked_onContext hc fun x hx => ?_
  split
  case isTrue hf => exact .failed c x hc hx hf
  case isFalse hf =>
    refine .passed _ (slotsUsable_of_singleton hn hx (Bool.eq_false_of_not_eq_true hf)) (fun d y hd _ => ?_) (h x)
    rw [hneed] at hd
    cases hd

/-- CLONE checks FAILED of both slots and then SEEDED of its source only (40_engine.md R108). -/
theorem execClone_slotChecked {d src : CtxIx} {s t : State} (h : execClone d src s = .next t) :
    SlotChecked (.clone d src) s t := by
  have hd : d ∈ slotsNamed (.clone d src) := .head _
  have hsrc : src ∈ slotsNamed (.clone d src) := .tail _ (.head _)
  cases h
  refine slotChecked_onContext hd fun xd hxd => slotChecked_onContext hsrc fun xs hxs => ?_
  split
  case isTrue hf =>
    rcases (Bool.or_eq_true _ _).mp hf with hfd | hfs
    · exact .failed d xd hd hxd hfd
    · exact .failed src xs hsrc hxs hfs
  case isFalse hf =>
    obtain ⟨hfd, hfs⟩ := Bool.or_eq_false_iff.mp (Bool.eq_false_of_not_eq_true hf)
    have hu : s.SlotsUsable (.clone d src) :=
      List.forall_mem_cons.2 ⟨⟨xd, hxd, hfd⟩, List.forall_mem_singleton.2 ⟨xs, hxs, hfs⟩⟩
    cases hs : xs.seeded with
    | false => exact .unseeded src xs hu rfl hxs hs
    | true =>
      refine .passed _ hu (fun c y hc hy => ?_) ?_
      · cases hc
        rw [hxs] at hy
        cases hy
        exact hs
      · simp only [Bool.not_true, Bool.false_eq_true, if_false]
        split
        · exact pastSlotChecks_complete (by decide) _ _
        · exact pastSlotChecks_complete (by decide) _ _

/-- A command whose operands fit comes to its slot checks, and goes on as they say. -/
theorem exec_slotChecked {i : Instr} {s t : State} (hfit : operandsFit s i) (h : exec i s = .next t) :
    SlotChecked i s t := by
  cases i with
  | nextRaw64 c =>
    cases h
    exact slotChecked_onDrawable rfl rfl fun x => pastSlotChecks_finishDraw _ _ _
  | unitFloat c =>
    cases h
    exact slotChecked_onDrawable rfl rfl fun x => pastSlotChecks_finishDraw _ _ _
  | jump c =>
    cases h
    exact slotChecked_onDrawable rfl rfl fun x => pastSlotChecks_complete (by decide) _ _
  | boundedInt w c =>
    have hf : fits w s.opa = true := (fits_iff w s.opa).2 hfit
    rw [exec, execBoundedInt, if_pos hf] at h
    cases h
    exact slotChecked_onDrawable rfl rfl fun x => pastSlotChecks_finishDraw _ _ _
  | rangedInt w c =>
    have hf : (fits w s.opa && fits w s.opb) = true := by
      rw [Bool.and_eq_true, fits_iff, fits_iff]
      exact hfit
    rw [exec, execRangedInt, if_pos hf] at h
    cases h
    refine slotChecked_onDrawable rfl rfl fun x => ?_
    split
    · exact pastSlotChecks_complete (by decide) _ _
    · exact pastSlotChecks_finishDraw _ _ _
  | randomChar c =>
    have hf : ¬ s.alpha.length < s.alphaLen.toNat := Nat.not_lt_of_le hfit
    rw [exec, execRandomChar, if_neg hf] at h
    cases h
    refine slotChecked_onDrawable rfl rfl fun x => ?_
    split
    · exact pastSlotChecks_complete (by decide) _ _
    · exact pastSlotChecks_finishDraw _ _ _
  | reseedAuto c =>
    cases h
    refine slotChecked_reseed rfl rfl fun x => ?_
    split
    · exact fun hp => nomatch hp
    · exact pastSlotChecks_complete (by decide) _ _
    · exact pastSlotChecks_complete (by decide) _ _
  | reseedSeed c =>
    cases h
    refine slotChecked_reseed rfl rfl fun x => ?_
    split
    · exact pastSlotChecks_complete (by decide) _ _
    · exact pastSlotChecks_complete (by decide) _ _
  | clone d src => exact execClone_slotChecked h

/-- Settles O37: with all slots there, a failed one leaves `SlotChecked` only its InstanceFailed case. -/
theorem instanceFailedEnds : Obligations.InstanceFailedEnds := by
  rintro i s hfit hthere ⟨c, hc, x, hx, hfailed⟩
  have hunusable : ¬ s.SlotsUsable i := fun hu => by simp [hu.failed_eq_false hc hx] at hfailed
  obtain ⟨t, h⟩ := exec_next i s
  rw [h]
  cases exec_slotChecked hfit h with
  | missing d hd hnone => exact absurd (hthere d hd) (Nat.not_lt_of_le (List.getElem?_eq_none_iff.mp hnone))
  | failed d y hd hy hf => rw [raise_eq]; rfl
  | unseeded d y hu hd hy hs => exact absurd hu hunusable
  | passed t hu hs ht => exact absurd hu hunusable

/-- On usable slots, an unseeded slot that must be seeded ends the command with NotSeeded (60_exceptions.md R189). -/
theorem exec_of_unseeded {i : Instr} {s : State} {c : CtxIx} {x : Ctx} (hfit : operandsFit s i) (hu : s.SlotsUsable i)
    (hneed : slotNeedsSeed i = some c) (hx : s.ctxs[c.toNat]? = some x) (hs : x.seeded = false) :
    exec i s = .next (raise .notSeeded s) := by
  obtain ⟨t, h⟩ := exec_next i s
  rw [h]
  cases exec_slotChecked hfit h with
  | missing d hd hnone =>
    obtain ⟨y, hy, -⟩ := hu d hd
    simp [hnone] at hy
  | failed d y hd hy hf => simp [hu.failed_eq_false hd hy] at hf
  | unseeded d y hu hd hy hs => rfl
  | passed t _ hseeded ht => simp [hseeded c x hneed hx] at hs

/-- No command ends with code 6 but for an unseeded slot that must be seeded (60_exceptions.md R189). -/
theorem exec_unseeded_of_err_eq_six {i : Instr} {s t : State} (h : exec i s = .next t) (hp : t.phase = .idle)
    (he : t.err = 6#8) : ∃ c x, slotNeedsSeed i = some c ∧ s.ctxs[c.toNat]? = some x ∧ x.seeded = false := by
  by_cases hfit : operandsFit s i
  · cases exec_slotChecked hfit h with
    | missing c hc hx => exact absurd he (by simp [raise, Err.code])
    | failed c x hc hx hf => exact absurd he (by simp [raise, Err.code])
    | unseeded c x hu hc hx hs => exact ⟨c, x, hc, hx, hs⟩
    | passed t hu hs ht => exact absurd (ht hp) (by simp [he])
  · rw [exec_of_not_operandsFit hfit] at h
    cases h
    exact absurd he (by simp [raise, Err.code])

/-- Settles O38: the slot checks raise NotSeeded exactly there, and nothing before or after them does. -/
theorem notSeededEnds : Obligations.NotSeededEnds := by
  refine ⟨fun i s c x hfit hu hneed hx hs => ?_, fun i s t h hp he => exec_unseeded_of_err_eq_six h hp he⟩
  rw [exec_of_unseeded hfit hu hneed hx hs, raise_eq]
  rfl

end Sys2Proof.Machine
end

section
/-! Decoding and encoding are inverse to each other (30_encoding.md R88, R93, R94): the conditions under which a word decodes,
said once, serve both directions. -/

namespace Sys2Proof

/-- A word decodes exactly when none of the six items of 30_encoding.md R88 holds of it. -/
theorem decode_eq_ok_iff {n : Nat} {w : Word32} {i : Instr} :
    decode n w = .ok i ↔
      decodeOp (opField w) (decodeWidth (widthField w)) (ctxField w) (srcField w) = some i ∧ rsvField w = 0#6 ∧
      (widthField w = 0#2 ∨ opField w = 0x06#8 ∨ opField w = 0x07#8) ∧ (srcField w = 0#8 ∨ opField w = 0x04#8) ∧
      (ctxField w).toNat < n ∧ (opField w = 0x04#8 → (srcField w).toNat < n) := by
  unfold decode
  split
  case h_1 h => simp [h]
  case h_2 j h =>
    rw [h]
    repeat' split
    all_goals simp only [reduceCtorEq, false_iff, Decoded.ok.injEq, Option.some.injEq, ← Nat.not_le]
    all_goals tauto

/-- The context fields of a decoded word are below `n` exactly when its command is well-formed (30_encoding.md R83, R84). -/
theorem wellFormed_iff_of_decodeOp {n : Nat} {op : BitVec 8} {wd : Width} {c s : CtxIx} {i : Instr}
    (h : decodeOp op wd c s = some i) :
    i.wellFormed n = true ↔ c.toNat < n ∧ (op = 0x04#8 → s.toNat < n) := by
  unfold decodeOp at h
  repeat' split at h
  all_goals cases h
  all_goals simp_all [Instr.wellFormed]

/-- A command is encoded by the fields it was decoded from, the width and the source being 0 where it takes none
(30_encoding.md R94). -/
theorem encode_of_decodeOp {op : BitVec 8} {wc : BitVec 2} {c s : CtxIx} {i : Instr}
    (h : decodeOp op (decodeWidth wc) c s = some i) (hw : wc = 0#2 ∨ op = 0x06#8 ∨ op = 0x07#8)
    (hs : s = 0#8 ∨ op = 0x04#8) : encode i = commandWord s c wc op := by
  unfold decodeOp at h
  repeat' split at h
  all_goals cases h
  all_goals simp_all [encode, encodeWidth_decodeWidth]

/-- The command word of the fields a command has decodes to it. -/
theorem decode_commandWord {n : Nat} {s c : CtxIx} {wc : BitVec 2} {op : BitVec 8} {i : Instr}
    (h : decodeOp op (decodeWidth wc) c s = some i) (hw : wc = 0#2 ∨ op = 0x06#8 ∨ op = 0x07#8)
    (hs : s = 0#8 ∨ op = 0x04#8) (hi : i.wellFormed n = true) : decode n (commandWord s c wc op) = .ok i := by
  rw [decode_eq_ok_iff, opField_commandWord, widthField_commandWord, rsvField_commandWord, ctxField_commandWord,
    srcField_commandWord]
  exact ⟨h, rfl, hw, hs, (wellFormed_iff_of_decodeOp h).1 hi⟩

/-- Settles O1: each command's word has its fields, and those decode to the command. -/
theorem decodeOfEncode : Obligations.DecodeOfEncode := by
  intro n i hi
  cases i with
  | nextRaw64 c => exact decode_commandWord rfl (.inl rfl) (.inl rfl) hi
  | reseedAuto c => exact decode_commandWord rfl (.inl rfl) (.inl rfl) hi
  | reseedSeed c => exact decode_commandWord rfl (.inl rfl) (.inl rfl) hi
  | clone d s => exact decode_commandWord rfl (.inl rfl) (.inr rfl) hi
  | jump c => exact decode_commandWord rfl (.inl rfl) (.inl rfl) hi
  | boundedInt w c =>
    exact decode_commandWord (by rw [decodeWidth_encodeWidth]; rfl) (.inr (.inl rfl)) (.inl rfl) hi
  | rangedInt w c =>
    exact decode_commandWord (by rw [decodeWidth_encodeWidth]; rfl) (.inr (.inr rfl)) (.inl rfl) hi
  | unitFloat c => exact decode_commandWord rfl (.inl rfl) (.inl rfl) hi
  | randomChar c => exact decode_commandWord rfl (.inl rfl) (.inl rfl) hi

/-- Settles O2: a word that decodes is the command word of its fields, and those are the command's. -/
theorem encodeOfDecode : Obligations.EncodeOfDecode := by
  intro n w i h
  obtain ⟨hop, hrsv, hw, hs, hctx⟩ := decode_eq_ok_iff.1 h
  exact ⟨(encode_of_decodeOp hop hw hs).trans (commandWord_fields w hrsv), (wellFormed_iff_of_decodeOp hop).2 hctx⟩

/-- A word is refused exactly when it decodes to no command: the decoder is total. -/
theorem exists_illegal_iff {n : Nat} {w : Word32} : (∃ r, decode n w = .illegal r) ↔ ¬ ∃ i, decode n w = .ok i := by
  cases decode n w <;> simp

/-- Settles O3: the six items by number; none of them holds exactly when the word decodes. -/
theorem illegalExactly : Obligations.IllegalExactly := by
  intro n w
  have hop : (∃ i, decodeOp (opField w) (decodeWidth (widthField w)) (ctxField w) (srcField w) = some i) ↔
      ¬ ((opField w).toNat = 0 ∨ 10 ≤ (opField w).toNat) := by
    rw [← decodeOp_eq_none _ (decodeWidth (widthField w)) (ctxField w) (srcField w), ← ne_eq,
      Option.ne_none_iff_exists']
  simp only [exists_illegal_iff, decode_eq_ok_iff, exists_and_right, hop, ← BitVec.toNat_inj, opField_toNat,
    widthField_toNat, rsvField_toNat, ctxField_toNat, srcField_toNat, BitVec.toNat_ofNat]
  omega

/-- Settles O4: eight literal words through the decoder. -/
theorem sampleWords : Obligations.SampleWords := by
  unfold Obligations.SampleWords
  decide

end Sys2Proof
end

section
/-! What a command leaves unchanged: the registers, the other slots, and of its own slot all that draws do not write
(10_state.md R21, R29, R30, R32, R35; 60_exceptions.md R181, R185). -/

namespace Sys2Proof.Machine

/-! ## Registers -/

/-- What every command leaves of the host registers and of the model's own fields (10_state.md R35). -/
def SameRegisters (s t : State) : Prop :=
  t.cmd = s.cmd ∧ t.ovr = s.ovr ∧ t.opa = s.opa ∧ t.opb = s.opb ∧ t.seedLen = s.seedLen ∧ t.seed = s.seed ∧
  t.seed5 = s.seed5 ∧ t.alphaLen = s.alphaLen ∧ t.alpha = s.alpha ∧ t.ctxSel = s.ctxSel ∧ t.turns = s.turns ∧
  t.reply = s.reply

theorem SameRegisters.refl (s : State) : SameRegisters s s :=
  ⟨rfl, rfl, rfl, rfl, rfl, rfl, rfl, rfl, rfl, rfl, rfl, rfl⟩

/-- However far its draws got, a command leaves the registers. -/
theorem finishDraw_sameRegisters (c : CtxIx) (d : Draw Word) (s : State) : SameRegisters s (finishDraw c d s) := by
  cases d <;> exact SameRegisters.refl s

/-- Every command leaves the registers. -/
theorem exec_sameRegisters {i : Instr} {s t : State} (h : exec i s = .next t) : SameRegisters s t := by
  cases exec_cases h with
  | draw x d => exact finishDraw_sameRegisters i.ctx d s
  | error e => exact SameRegisters.refl s
  | request => exact SameRegisters.refl s
  | entropyFail c x => exact SameRegisters.refl s
  | noop c => exact SameRegisters.refl s
  | write x z => exact SameRegisters.refl s

/-- RESULT is written by a completed draw only (20_memory.md R58). -/
theorem exec_result {i : Instr} {s t : State} (h : exec i s = .next t) (hr : t.result ≠ s.result) :
    i.draws = true ∧ t.phase = .idle ∧ t.err = 0#8 := by
  cases exec_cases h with
  | draw x d hd =>
    cases d with
    | done v z k => exact ⟨hd, rfl, rfl⟩
    | waitKs z => exact absurd rfl hr
    | primFail z => exact absurd rfl hr
    | more z k => exact absurd rfl hr
  | error e => exact absurd rfl hr
  | request => exact absurd rfl hr
  | entropyFail c x => exact absurd rfl hr
  | noop c => exact absurd rfl hr
  | write x z => exact absurd rfl hr

/-- Settles O42: the two lemmas above. -/
theorem execFrameRegisters : Obligations.ExecFrameRegisters := by
  intro i s t h
  obtain ⟨h1, h2, h3, h4, h5, h6, h7, h8, h9, h10, h11, h12⟩ := exec_sameRegisters h
  exact ⟨h1, h2, h3, h4, h5, h6, h7, h8, h9, h10, h11, h12, exec_result h⟩

/-! ## Slots -/

/-- `t` has the slots of `s`, but slot `c` may have been written. -/
def WritesOnly (c : CtxIx) (s t : State) : Prop := t.ctxs = s.ctxs ∨ ∃ z, t.ctxs = s.ctxs.set c.toNat z

/-- The number of slots stays. -/
theorem WritesOnly.length_eq {c : CtxIx} {s t : State} (h : WritesOnly c s t) : t.ctxs.length = s.ctxs.length := by
  rcases h with h | ⟨z, h⟩ <;> simp [h]

/-- Every other slot stays. -/
theorem WritesOnly.getElem?_ne {c : CtxIx} {s t : State} (h : WritesOnly c s t) {j : Nat} (hj : j ≠ c.toNat) :
    t.ctxs[j]? = s.ctxs[j]? := by
  rcases h with h | ⟨z, h⟩ <;> rw [h]
  exact List.getElem?_set_ne hj.symm

/-- However far its draws got, a command writes no slot but its own. -/
theorem finishDraw_writesOnly (c : CtxIx) (d : Draw Word) (s : State) : WritesOnly c s (finishDraw c d s) := by
  cases d with
  | done v z k => exact .inr ⟨z, rfl⟩
  | waitKs z => exact .inl rfl
  | primFail z => exact .inr ⟨z, rfl⟩
  | more z k => exact .inl rfl

/-- A command writes no slot but the one CTX names (10_state.md R32). -/
theorem exec_writesOnly {i : Instr} {s t : State} (h : exec i s = .next t) : WritesOnly i.ctx s t := by
  cases exec_cases h with
  | error e => exact .inl rfl
  | request => exact .inl rfl
  | entropyFail c x hi => subst hi; exact .inr ⟨_, rfl⟩
  | noop c => exact .inl rfl
  | write x z => exact .inr ⟨z, rfl⟩
  | draw x d => exact finishDraw_writesOnly i.ctx d s

/-- Settles O43: `exec_writesOnly`. -/
theorem execFrameSlots : Obligations.ExecFrameSlots := fun _ _ _ h =>
  ⟨(exec_writesOnly h).length_eq, fun _ hj => (exec_writesOnly h).getElem?_ne hj⟩

/-! ## The slot of a command that draws -/

/-- `z` is what draws can leave of the context `w` with answer `ks`, the answer `k` being left: KEY, SEEDED and FAILED are
those of `w`; the buffer, the counter and the nonce are too, or are those of one Refill, which has used a success up
(40_engine.md R103, R110). -/
def DrawnFrom (w : Ctx) (ks : Option (BitVec 8)) (z : Ctx) (k : Option (BitVec 8)) : Prop :=
  (z.key = w.key ∧ z.seeded = w.seeded ∧ z.failed = w.failed) ∧
  ((k = ks ∧ z.buf = w.buf ∧ z.ctr = w.ctr ∧ z.nonce = w.nonce) ∨
    (k = none ∧ ks = some 0#8 ∧ z.buf = (refillCtx w).buf ∧ z.ctr = (refillCtx w).ctr ∧ z.nonce = (refillCtx w).nonce))

/-- Before the first draw. -/
theorem DrawnFrom.refl (w : Ctx) (ks : Option (BitVec 8)) : DrawnFrom w ks w ks :=
  ⟨⟨rfl, rfl, rfl⟩, .inl ⟨rfl, rfl, rfl, rfl⟩⟩

/-- There is one Refill at most: it needs a success, and leaves no answer. -/
theorem DrawnFrom.refill {w : Ctx} {ks : Option (BitVec 8)} (z : Ctx) (h : DrawnFrom w ks z (some 0#8)) :
    DrawnFrom w ks (refillCtx z) none := by
  obtain ⟨⟨hkey, hs, hf⟩, ⟨hk, _, hctr, hnonce⟩ | ⟨hk, _⟩⟩ := h
  · exact ⟨⟨hkey, hs, hf⟩, .inr ⟨rfl, hk.symm, by simp [hkey, hctr, hnonce]⟩⟩
  · cases hk

/-- Taking a draw moves the cursor only. -/
theorem DrawnFrom.advance {w : Ctx} {ks : Option (BitVec 8)} (z : Ctx) (k : Option (BitVec 8)) (_ : z.off.val ≤ 56)
    (h : DrawnFrom w ks z k) : DrawnFrom w ks (advance z) k := h

/-- What a command that draws does, with what its draws leave. -/
theorem exec_drawnFrom {i : Instr} {s t : State} (hi : i.draws = true) (h : exec i s = .next t) :
    (∃ e : Err, t = s.endedWith e.code) ∨ ∃ x d, s.Drawable i.ctx x ∧ (∀ z k, d ≠ .more z k) ∧
      DrawLeaves (DrawnFrom (s.working x) s.ksAnswer) d ∧ t = finishDraw i.ctx d s := by
  cases exec_cases h with
  | error e => exact .inl ⟨e, rfl⟩
  | draw x d hd hx hm keeps =>
    exact .inr ⟨x, d, hx, hm, keeps _ DrawnFrom.refill DrawnFrom.advance (DrawnFrom.refl _ _), rfl⟩
  | request c x hi' => subst hi'; cases hi
  | entropyFail c x hi' => subst hi'; cases hi
  | noop c hi' => subst hi'; cases hi
  | write x z hd => rw [hi] at hd; cases hd

/-- The context a command goes on with has the KEY, SEEDED and FAILED of its slot. -/
theorem State.WorkOfSlot.working {s : State} {i : Instr} {x : Ctx} (h : s.WorkOfSlot i)
    (hx : s.ctxs[i.ctx.toNat]? = some x) :
    (s.working x).key = x.key ∧ (s.working x).seeded = x.seeded ∧ (s.working x).failed = x.failed := by
  unfold State.working
  cases hw : s.work with
  | none => exact ⟨rfl, rfl, rfl⟩
  | some z => exact h x z hx hw

/-- A slot that is written holds what was written. -/
theorem getElem?_set_of_some {l : List Ctx} {c : Nat} {x y z : Ctx} (hx : l[c]? = some x)
    (hy : (l.set c z)[c]? = some y) : y = z := by
  rw [List.getElem?_set_self (List.getElem?_eq_some_iff.1 hx).1] at hy
  exact (Option.some.inj hy).symm

end Sys2Proof.Machine
end

section
/-! What errors, KEY, SEEDED and FAILED allow: a command that ends with an error of class 1 to 4 has written ERR only, only a
reseed or a CLONE writes KEY, and only reset clears SEEDED or FAILED (10_state.md R21, R29, R30; 60_exceptions.md R181,
R185, R188). -/

namespace Sys2Proof.Machine

/-! ## The slot of a command that draws -/

/-- The slot of a command that draws after its run: as it was, or what its draws left of the context it went on with, FAILED
being set when a Refill failed (10_state.md R24; 40_engine.md R103, R110). -/
theorem exec_draw_slot {i : Instr} {s t : State} {x y : Ctx} (hi : i.draws = true) (h : exec i s = .next t)
    (hx : s.ctxs[i.ctx.toNat]? = some x) (hy : t.ctxs[i.ctx.toNat]? = some y) :
    y = x ∨ (t.phase = .idle ∧ x.failed = false ∧
      ((t.err = 0#8 ∧ ∃ k, DrawnFrom (s.working x) s.ksAnswer y k) ∨
        (t.err = 4#8 ∧ ∃ z k, DrawnFrom (s.working x) s.ksAnswer z k ∧ y = { z with failed := true }))) := by
  rcases exec_drawnFrom hi h with ⟨e, rfl⟩ | ⟨x', d, ⟨hx', hf, _⟩, hm, hl, rfl⟩
  · exact .inl (Option.some.inj (hy.symm.trans hx))
  · obtain rfl : x' = x := Option.some.inj (hx'.symm.trans hx)
    cases d with
    | done v z k =>
      obtain rfl := getElem?_set_of_some hx hy
      exact .inr ⟨rfl, hf, .inl ⟨rfl, k, hl⟩⟩
    | waitKs z => exact .inl (Option.some.inj (hy.symm.trans hx))
    | primFail z =>
      obtain rfl := getElem?_set_of_some hx hy
      obtain ⟨w, st, _, hw, rfl⟩ := hl
      exact .inr ⟨rfl, hf, .inr ⟨rfl, w, some st, hw, rfl⟩⟩
    | more z k => exact absurd rfl (hm z k)

/-- What `DrawnFrom` says of buffer, counter and nonce. -/
theorem DrawnFrom.position {w z : Ctx} {ks k : Option (BitVec 8)} (h : DrawnFrom w ks z k) :
    (z.buf = w.buf ∧ z.ctr = w.ctr ∧ z.nonce = w.nonce) ∨
    (ks = some 0#8 ∧ z.buf = (refillCtx w).buf ∧ z.ctr = (refillCtx w).ctr ∧ z.nonce = (refillCtx w).nonce) :=
  h.2.imp (·.2) (·.2)

/-- A command that draws nothing and writes KEY is a reseed or a CLONE, and has ended with code 0 (10_state.md R21). -/
theorem exec_writes_key {i : Instr} {s t : State} {x y : Ctx} (hi : i.draws = false) (h : exec i s = .next t)
    (hx : s.ctxs[i.ctx.toNat]? = some x) (hy : t.ctxs[i.ctx.toNat]? = some y) (hk : y.key ≠ x.key) :
    t.phase = .idle ∧ t.err = 0#8 ∧ ((∃ c, i = .reseedAuto c) ∨ (∃ c, i = .reseedSeed c) ∨ ∃ d c, i = .clone d c) := by
  have hsame : ∀ {z}, s.ctxs[i.ctx.toNat]? = some z → z.key ≠ x.key → False := fun hz hk =>
    hk (by rw [Option.some.inj (hz.symm.trans hx)])
  cases exec_cases h with
  | error e => exact (hsame hy hk).elim
  | request => exact (hsame hy hk).elim
  | noop c => exact (hsame hy hk).elim
  | draw x' d hd => rw [hi] at hd; cases hd
  | entropyFail c x' hi' ha hx' =>
    subst hi'
    obtain rfl : x' = x := Option.some.inj (hx'.symm.trans hx)
    obtain rfl := getElem?_set_of_some hx hy
    exact absurd rfl hk
  | write x' z hd hx' hf hz hs how =>
    obtain rfl : x' = x := Option.some.inj (hx'.symm.trans hx)
    obtain rfl := getElem?_set_of_some hx hy
    rcases how with ⟨hc | hc, _⟩ | ⟨_, _, rfl⟩ | ⟨src, xs, hc, _⟩
    · exact ⟨rfl, rfl, .inl hc⟩
    · exact ⟨rfl, rfl, .inr (.inl hc)⟩
    · exact absurd rfl hk
    · exact ⟨rfl, rfl, .inr (.inr ⟨_, _, hc⟩)⟩

/-- Settles O44: a command that draws leaves its slot as `exec_draw_slot` says, its working copy being of its slot; of the
others `exec_writes_key` speaks. -/
theorem drawFrame : Obligations.DrawFrame := by
  intro i s t x y hw h hx hy
  obtain ⟨hkey, hseeded, hfailed⟩ := hw.working hx
  cases hi : i.draws with
  | false => exact ⟨exec_writes_key hi h hx hy, fun hd => (nomatch hd)⟩
  | true =>
    suffices hframe : y.key = x.key ∧ y.seeded = x.seeded ∧ (x.failed = true → y.failed = true) ∧ _ from
      ⟨fun hk => absurd hframe.1 hk, fun _ => hframe⟩
    rcases exec_draw_slot hi h hx hy with rfl | ⟨hp, hf, ⟨he, k, hd⟩ | ⟨he, z, k, hd, rfl⟩⟩
    · exact ⟨rfl, rfl, id, fun hne => absurd rfl hne⟩
    · obtain ⟨⟨hk, hs, hf'⟩, _⟩ := id hd
      exact ⟨hk.trans hkey, hs.trans hseeded, fun hx => by rw [hf', hfailed, hx], fun _ => ⟨hp, .inl he, hd.position⟩⟩
    · obtain ⟨⟨hk, hs, _⟩, _⟩ := id hd
      exact ⟨hk.trans hkey, hs.trans hseeded, fun _ => rfl, fun _ => ⟨hp, .inr he, hd.position⟩⟩

/-! ## Error codes -/

/-- Settles O39: the errors of class 1 to 4 are those that write the code only; every other end has code 0, 4 or 7. -/
theorem validateBeforeMutate : Obligations.ValidateBeforeMutate := by
  intro s t h hp he
  cases hdec : decode s.ctxs.length s.cmd with
  | illegal r =>
    rw [runCommand_of_illegal hdec, raise_eq] at h
    cases h
    rfl
  | ok i =>
    rw [runCommand_of_ok hdec] at h
    cases exec_cases h with
    | error e => rfl
    | request => cases hp
    | entropyFail c x => exact absurd he (by simp)
    | noop c => exact absurd he (by simp)
    | write x z => exact absurd he (by simp)
    | draw x d =>
      cases d with
      | done v z k => exact absurd he (by simp [finishDraw])
      | waitKs z => cases hp
      | primFail z => exact absurd he (by simp [finishDraw, raise, Err.code])
      | more z k => exact absurd he (by cases hp)

end Sys2Proof.Machine
end

section
/-! What every step keeps: the invariants of the contexts and of the sequencer (10_state.md R25, R26, R29, R34;
20_memory.md R74). -/

namespace Sys2Proof.Machine

/-! ## The contexts -/

/-- A draw up to OFF 56 leaves the unread bytes where they were. -/
theorem provenance_advance (x : Ctx) (ho : x.off.val ≤ 56) (h : x.Provenance) : (advance x).Provenance :=
  fun _ => h (by omega)

/-- A context with no unread bytes has nothing to show (10_state.md R26). -/
theorem provenance_of_off {x : Ctx} (h : x.off = 64) : x.Provenance :=
  fun hlt => absurd hlt (by rw [h]; decide)

/-- Settles O57: Refill leaves the block of the triple it passed, a draw moves the cursor only, and every other write leaves
OFF 64 or copies a context. -/
theorem stepKeepsProvenance : Obligations.StepKeepsProvenance := by
  intro s t hs h
  exact slots_step (P := Ctx.Provenance) (R := Ctx.Provenance) (hRP := fun _ hx => hx) (hPR := fun _ hx _ _ => hx)
    (href := fun x _ => provenance_refill x)
    (hadv := provenance_advance)
    (hfail := fun _ hx => hx)
    (hseed := fun x e _ => provenance_of_off (seedCtx_off x e))
    (hjump := fun x _ _ => provenance_of_off (jumpCtx_off x))
    (hreset := fun _ => provenance_of_off rfl) hs h

/-- What StepKeepsCtxShape says of a slot. -/
def Ctx.SlotShape (x : Ctx) : Prop := x.Aligned ∧ x.FreshUntilSeeded

/-- What StepKeepsCtxShape says of a working copy. -/
def Ctx.WorkShape (x : Ctx) : Prop := x.Aligned ∧ x.seeded = true ∧ x.failed = false

/-- A context at OFF 64 is aligned. -/
theorem aligned_of_off {x : Ctx} (h : x.off = 64) : x.Aligned := by
  rw [Ctx.Aligned, h]
  rfl

/-- A seeded context need not be at its reset position. -/
theorem freshUntilSeeded_of_seeded {x : Ctx} (h : x.seeded = true) : x.FreshUntilSeeded :=
  fun hs => absurd (h.symm.trans hs) (by decide)

/-- A working copy may be written to its slot. -/
theorem Ctx.WorkShape.slotShape (x : Ctx) (h : x.WorkShape) : x.SlotShape := ⟨h.1, freshUntilSeeded_of_seeded h.2.1⟩

/-- A draw adds 8 to OFF (40_engine.md R104). -/
theorem Ctx.WorkShape.advance (x : Ctx) (ho : x.off.val ≤ 56) (h : x.WorkShape) : (advance x).WorkShape := by
  obtain ⟨ha, hu⟩ := h
  rw [Ctx.Aligned] at ha
  exact ⟨by rw [Ctx.Aligned, advance_off_val x ho]; omega, hu⟩

/-- Settles O58: a draw keeps OFF a multiple of 8 and never touches SEEDED or FAILED; every other write leaves OFF 64 or
copies a context, and leaves it seeded or as fresh as it was. -/
theorem stepKeepsCtxShape : Obligations.StepKeepsCtxShape := by
  intro s t hw ha hf h
  have hs : SlotsWork Ctx.SlotShape Ctx.WorkShape s :=
    ⟨fun x hx => ⟨ha.1 x hx, hf.1 x hx⟩, fun x hx => ⟨ha.2 x hx, hw x hx⟩⟩
  obtain ⟨hslots, hwork⟩ : SlotsWork Ctx.SlotShape Ctx.WorkShape t :=
    slots_step (hRP := Ctx.WorkShape.slotShape) (hPR := fun _ hx hs hf => ⟨hx.1, hs, hf⟩)
      (href := fun _ hx => ⟨rfl, hx.2⟩)
      (hadv := Ctx.WorkShape.advance)
      (hfail := fun _ hx => hx)
      (hseed := fun x e _ => ⟨aligned_of_off (seedCtx_off x e), freshUntilSeeded_of_seeded (seedCtx_seeded x e)⟩)
      (hjump := fun x _ hs => ⟨aligned_of_off (jumpCtx_off x), freshUntilSeeded_of_seeded hs⟩)
      (hreset := fun _ => ⟨aligned_of_off rfl, fun _ => ⟨rfl, rfl⟩⟩) hs h
  exact ⟨fun x hx => (hwork x hx).2, ⟨fun x hx => (hslots x hx).1, fun x hx => (hwork x hx).1⟩,
    ⟨fun x hx => (hslots x hx).2, fun x hx => (hwork x hx).slotShape.2⟩⟩

/-! ## What a host access leaves -/

/-- A host access writes neither slots nor ERR nor the count of requests, and does not change the capacity
(20_memory.md R54). -/
theorem hostAccess_frame (a : HostAccess) (s : State) :
    (hostAccess a s).ctxs = s.ctxs ∧ (hostAccess a s).err = s.err ∧ (hostAccess a s).reqs = s.reqs ∧
      (hostAccess a s).alpha.length = s.alpha.length := by
  generalize ht : hostAccess a s = t
  have hc := host_cases a s
  rw [ht] at hc
  cases hc with
  | reply r => exact ⟨rfl, rfl, rfl, rfl⟩
  | ovr b => exact ⟨rfl, rfl, rfl, rfl⟩
  | issue w hi => exact ⟨rfl, rfl, rfl, rfl⟩
  | reg r v hi hr =>
    obtain ⟨hctxs, _, herr, _, _, _, _, _, hreqs, _, halpha⟩ := writeReg_frame s v r hr
    exact ⟨hctxs, herr, hreqs, halpha⟩

/-- An answer reaches the sequencer only. -/
theorem keystreamTurn_frame (q : Nat) (st : BitVec 8) (s : State) :
    keystreamTurn q st s
      = { s with ksAnswer := (keystreamTurn q st s).ksAnswer, phase := (keystreamTurn q st s).phase } := by
  unfold keystreamTurn
  split <;> rfl

/-- An answer reaches the sequencer only. -/
theorem entropyTurn_frame (q : Nat) (e : EntropyAnswer) (s : State) :
    entropyTurn q e s
      = { s with entropyAnswer := (entropyTurn q e s).entropyAnswer, phase := (entropyTurn q e s).phase } := by
  unfold entropyTurn
  split <;> rfl

/-! ## Error codes -/

/-- A command leaves ERR, writes OK, or writes the code of an error (60_exceptions.md R183). -/
theorem exec_err {i : Instr} {s t : State} (h : exec i s = .next t) :
    t.err = s.err ∨ t.err = 0#8 ∨ ∃ e : Err, t.err = e.code := by
  cases exec_cases h with
  | error e => exact .inr (.inr ⟨e, rfl⟩)
  | request => exact .inl rfl
  | entropyFail c x => exact .inr (.inr ⟨.entropyFailure, rfl⟩)
  | noop c => exact .inr (.inl rfl)
  | write x z => exact .inr (.inl rfl)
  | draw x d =>
    cases d with
    | done v z k => exact .inr (.inl rfl)
    | waitKs z => exact .inl rfl
    | primFail z => exact .inr (.inr ⟨.primitiveFailure, rfl⟩)
    | more z k => exact .inl rfl

/-- Settles O40: a command writes a code of the table, an illegal word writes 5, a reset 0, and nothing else writes ERR. -/
theorem errCodesInTable : Obligations.ErrCodesInTable := by
  intro s t hs h
  unfold State.ErrInTable at *
  cases step_cases h with
  | run u t i hu hm hp hd he =>
    obtain ⟨_, _, _, _, herr, _⟩ := hu.same
    rcases exec_err he with h | h | ⟨e, h⟩ <;> rw [h]
    · rwa [herr]
    · exact Nat.zero_le 8
    · exact e.code_range.2
  | illegal u r hu => exact Nat.le_of_ble_eq_true rfl
  | hold u hu =>
    obtain ⟨_, _, _, _, herr, _⟩ := hu.same
    rwa [herr]
  | host a ts ht =>
    rw [(hostAccess_frame a _).2.1]
    exact hs
  | keystream q st ts ht =>
    rw [keystreamTurn_frame]
    exact hs
  | entropy q e ts ht =>
    rw [entropyTurn_frame]
    exact hs
  | reset ts ht => exact Nat.zero_le 8

/-! ## SEEDED and FAILED -/

/-- `y` may follow `x` in a slot: SEEDED is not cleared, and a failed context stays as it is (10_state.md R29, R30). -/
def Ctx.Sticky (x y : Ctx) : Prop := (x.seeded = true → y.seeded = true) ∧ (x.failed = true → y = x)

theorem Ctx.Sticky.refl (x : Ctx) : x.Sticky x := ⟨id, fun _ => rfl⟩

/-- Every slot of `s` is followed so in `t`. -/
def SlotsSticky (s t : State) : Prop :=
  ∀ (j : Nat) (x : Ctx), s.ctxs[j]? = some x → ∃ y, t.ctxs[j]? = some y ∧ x.Sticky y

theorem slotsSticky_of_eq {s t : State} (h : t.ctxs = s.ctxs) : SlotsSticky s t :=
  fun _ x hx => ⟨x, by rw [h, hx], .refl x⟩

/-- Writing a slot that has not failed with a seeded context. -/
theorem slotsSticky_set {s t : State} {c : Nat} {x z : Ctx} (hx : s.ctxs[c]? = some x) (hxz : x.Sticky z)
    (ht : t.ctxs = s.ctxs.set c z) : SlotsSticky s t := by
  intro j y hy
  rw [ht]
  by_cases hj : c = j
  · subst hj
    obtain rfl : x = y := Option.some.inj (hx.symm.trans hy)
    exact ⟨z, List.getElem?_set_self (List.getElem?_eq_some_iff.1 hx).1, hxz⟩
  · exact ⟨y, by rw [List.getElem?_set_ne hj, hy], .refl y⟩

/-- A context that has not failed may be followed by one that is seeded if it is. -/
theorem sticky_of_not_failed {x z : Ctx} (hf : x.failed = false) (hs : x.seeded = true → z.seeded = true) : x.Sticky z :=
  ⟨hs, fun h => absurd (h.symm.trans hf) (by decide)⟩

/-- The context a command goes on with is seeded, if its working copy is usable and its slot drawable. -/
theorem State.WorkUsable.working_seeded {s : State} {c : CtxIx} {x : Ctx} (hw : s.WorkUsable) (hx : s.Drawable c x) :
    (s.working x).seeded = true := by
  unfold State.working
  cases h : s.work with
  | none => exact hx.2.2
  | some z => exact (hw z h).1

/-- A command clears neither SEEDED nor FAILED of any slot, and does not touch a failed one (60_exceptions.md R188). -/
theorem exec_slotsSticky {i : Instr} {s t : State} (hw : s.WorkUsable) (h : exec i s = .next t) : SlotsSticky s t := by
  cases exec_cases h with
  | error e => exact slotsSticky_of_eq rfl
  | request => exact slotsSticky_of_eq rfl
  | noop c => exact slotsSticky_of_eq rfl
  | entropyFail c x hi ha hx hf =>
    have hsticky : x.Sticky { x with failed := true } := sticky_of_not_failed hf id
    exact slotsSticky_set hx hsticky rfl
  | write x z hd hx hf hz hs => exact slotsSticky_set hx (sticky_of_not_failed hf fun _ => hs) rfl
  | draw x d hd hx hm keeps =>
    have hl := keeps _ DrawnFrom.refill DrawnFrom.advance (DrawnFrom.refl _ _)
    cases d with
    | done v z k =>
      obtain ⟨⟨_, hs, _⟩, _⟩ := hl
      exact slotsSticky_set hx.1 (sticky_of_not_failed hx.2.1 fun _ => hs.trans (hw.working_seeded hx)) rfl
    | waitKs z => exact slotsSticky_of_eq rfl
    | primFail z =>
      obtain ⟨y, _, _, ⟨⟨_, hs, _⟩, _⟩, rfl⟩ := hl
      have hsticky : x.Sticky { y with failed := true } :=
        sticky_of_not_failed hx.2.1 fun _ => hs.trans (hw.working_seeded hx)
      exact slotsSticky_set hx.1 hsticky rfl
    | more z k => exact slotsSticky_of_eq rfl

/-- Settles O41: of all steps but a reset only the Engine's run of a command writes slots. -/
theorem seededFailedSticky : Obligations.SeededFailedSticky := by
  intro s t j x hw hr h hx
  suffices hst : SlotsSticky s t from hst j x hx
  cases step_cases h with
  | run u t i hu hm hp hd he =>
    rcases hu with rfl | ⟨ts, _, rfl⟩
    · exact exec_slotsSticky hw he
    · exact exec_slotsSticky (s := { s with turns := ts }) hw he
  | illegal u r hu => exact slotsSticky_of_eq hu.same.1
  | hold u hu => exact slotsSticky_of_eq hu.same.1
  | host a ts ht => exact slotsSticky_of_eq (hostAccess_frame a _).1
  | keystream q st ts ht =>
    rw [keystreamTurn_frame]
    exact slotsSticky_of_eq rfl
  | entropy q e ts ht =>
    rw [entropyTurn_frame]
    exact slotsSticky_of_eq rfl
  | reset ts ht => exact absurd (by rw [ht]; rfl) hr

end Sys2Proof.Machine
end

section
/-! The sequencer: what every step keeps of its state, of the working copy and of the parameters, that every step goes on,
and how requests are counted (10_state.md R34, R36; 20_memory.md R63, R74; 60_exceptions.md R180, R196, R197;
70_reset_and_hazards.md R211, R232). -/

namespace Sys2Proof.Machine

/-! ## Coherence -/

/-- A command keeps the sequencer's state fit to its phase: it ends, RESEED_AUTO waits for entropy, a command that draws for
keystream (10_state.md R34). -/
theorem exec_coherent {i : Instr} {s t : State} (hd : decode s.ctxs.length s.cmd = .ok i) (hs : s.Coherent)
    (h : exec i s = .next t) : t.Coherent := by
  obtain ⟨_, _, _, hdraw, hauto⟩ := hs
  cases exec_cases h with
  | error e => exact coherent_idle _ rfl rfl rfl rfl
  | entropyFail c x => exact coherent_idle _ rfl rfl rfl rfl
  | noop c => exact coherent_idle _ rfl rfl rfl rfl
  | write x z => exact coherent_idle _ rfl rfl rfl rfl
  | request c x hi ha =>
    exact ⟨fun hp => (nomatch hp), fun _ => ⟨⟨c, hi ▸ hd⟩, ha⟩, fun hp => (nomatch hp), hdraw, hauto⟩
  | draw x d hi hx hm =>
    have hruns : s.RunsDraw := ⟨i, hd, hi⟩
    cases d with
    | done v z k => exact coherent_idle _ rfl rfl rfl rfl
    | primFail z => exact coherent_idle _ rfl rfl rfl rfl
    | waitKs z =>
      exact ⟨fun hp => (nomatch hp), fun hp => (nomatch hp), fun _ => ⟨hruns, rfl, rfl⟩, fun _ => hruns, hauto⟩
    | more z k => exact absurd rfl (hm z k)

/-- The answer to the outstanding request belongs to a command that draws (60_exceptions.md R196). -/
theorem keystreamTurn_coherent (q : Nat) (st : BitVec 8) {s : State} (hs : s.Coherent) :
    (keystreamTurn q st s).Coherent := by
  unfold keystreamTurn
  split
  case isTrue hq =>
    obtain ⟨_, _, hwait, _, hauto⟩ := hs
    exact ⟨fun hp => (nomatch hp), fun hp => (nomatch hp), fun hp => (nomatch hp), fun _ => (hwait hq.1).1, hauto⟩
  case isFalse => exact hs

/-- The answer to the outstanding request belongs to RESEED_AUTO (60_exceptions.md R197). -/
theorem entropyTurn_coherent (q : Nat) (e : EntropyAnswer) {s : State} (hs : s.Coherent) :
    (entropyTurn q e s).Coherent := by
  unfold entropyTurn
  split
  case isTrue hq =>
    obtain ⟨_, hwait, _, hdraw, _⟩ := hs
    exact ⟨fun hp => (nomatch hp), fun hp => (nomatch hp), fun hp => (nomatch hp), hdraw, fun _ => (hwait hq.1).1⟩
  case isFalse => exact hs

/-- A command starts with nothing in flight, and no other host access touches the sequencer (20_memory.md R63). -/
theorem hostAccess_coherent (a : HostAccess) {s : State} (hs : s.Coherent) : (hostAccess a s).Coherent := by
  generalize ht : hostAccess a s = t
  have hc := host_cases a s
  rw [ht] at hc
  cases hc with
  | reply r => exact hs
  | ovr b => exact hs
  | issue w hi =>
    exact ⟨fun hp => (nomatch hp), fun hp => (nomatch hp), fun hp => (nomatch hp),
      fun hw => hw.elim (fun hw => (nomatch hw)) fun hk => (nomatch hk), fun he => (nomatch he)⟩
  | reg r v hi hr =>
    obtain ⟨hctxs, hcmd, _, _, hphase, hwork, hks, hent, _⟩ := writeReg_frame s v r hr
    exact coherent_same hs (congrArg List.length hctxs) hcmd hphase hwork hks hent

/-- Every step keeps the sequencer's state fit to its phase. -/
theorem step_coherent {s t : State} (h : step s = .next t) (hs : s.Coherent) : t.Coherent := by
  cases step_cases h with
  | run u t i hu hm hp hd he =>
    rcases hu with rfl | ⟨ts, _, rfl⟩
    · exact exec_coherent hd hs he
    · exact exec_coherent (s := { s with turns := ts }) hd hs he
  | illegal u r hu => exact coherent_idle _ rfl rfl rfl rfl
  | hold u hu => rcases hu with rfl | ⟨ts, _, rfl⟩ <;> exact hs
  | host a ts ht => exact hostAccess_coherent a (s := { s with turns := ts }) hs
  | keystream q st ts ht => exact keystreamTurn_coherent q st (s := { s with turns := ts }) hs
  | entropy q e ts ht => exact entropyTurn_coherent q e (s := { s with turns := ts }) hs
  | reset ts ht => exact coherent_idle _ rfl rfl rfl rfl

/-! ## The working copy -/

/-- Without a working copy there is nothing to agree on. -/
theorem workAgrees_of_none {t : State} (h : t.work = none) : t.WorkAgrees := by
  intro i _ x z _ hz
  rw [h] at hz
  cases hz

/-- Agreement reads the slots, the word and the working copy only. -/
theorem workAgrees_same {s t : State} (hs : s.WorkAgrees) (hctxs : t.ctxs = s.ctxs) (hcmd : t.cmd = s.cmd)
    (hwork : t.work = s.work) : t.WorkAgrees := by
  unfold State.WorkAgrees State.WorkOfSlot
  rw [hctxs, hcmd, hwork]
  exact hs

/-- A command that waits keeps in its working copy the KEY, SEEDED and FAILED of its slot (20_memory.md R67). -/
theorem exec_workAgrees {i : Instr} {s t : State} (hd : decode s.ctxs.length s.cmd = .ok i) (hs : s.WorkAgrees)
    (h : exec i s = .next t) : t.WorkAgrees := by
  cases exec_cases h with
  | error e => exact workAgrees_of_none rfl
  | entropyFail c x => exact workAgrees_of_none rfl
  | noop c => exact workAgrees_of_none rfl
  | write x z => exact workAgrees_of_none rfl
  | request => exact hs
  | draw x d hi hx hm keeps =>
    have hl := keeps _ DrawnFrom.refill DrawnFrom.advance (DrawnFrom.refl _ _)
    cases d with
    | done v z k => exact workAgrees_of_none rfl
    | primFail z => exact workAgrees_of_none rfl
    | more z k => exact absurd rfl (hm z k)
    | waitKs z =>
      intro i' hi' x' z' hx' hz'
      obtain rfl : i' = i := Decoded.ok.inj (hi'.symm.trans hd)
      obtain rfl : z = z' := Option.some.inj hz'
      obtain rfl : x' = x := Option.some.inj (hx'.symm.trans hx.1)
      obtain ⟨⟨hzkey, hzs, hzf⟩, _⟩ := hl
      obtain ⟨hkey, hseeded, hfailed⟩ := (hs i' hd).working hx'
      exact ⟨hzkey.trans hkey, hzs.trans hseeded, hzf.trans hfailed⟩

/-- No host access but an issue, which starts without one, touches the working copy (20_memory.md R63). -/
theorem hostAccess_workAgrees (a : HostAccess) {s : State} (hs : s.WorkAgrees) : (hostAccess a s).WorkAgrees := by
  generalize ht : hostAccess a s = t
  have hc := host_cases a s
  rw [ht] at hc
  cases hc with
  | reply r => exact hs
  | ovr b => exact hs
  | issue w hi => exact workAgrees_of_none rfl
  | reg r v hi hr =>
    obtain ⟨hctxs, hcmd, _, _, _, hwork, _⟩ := writeReg_frame s v r hr
    exact workAgrees_same hs hctxs hcmd hwork

/-- Every step keeps the working copy in agreement with its slot. -/
theorem step_workAgrees {s t : State} (h : step s = .next t) (hs : s.WorkAgrees) : t.WorkAgrees := by
  cases step_cases h with
  | run u t i hu hm hp hd he =>
    rcases hu with rfl | ⟨ts, _, rfl⟩
    · exact exec_workAgrees hd hs he
    · exact exec_workAgrees (s := { s with turns := ts }) hd hs he
  | illegal u r hu => exact workAgrees_of_none rfl
  | hold u hu =>
    obtain ⟨hctxs, hwork, _, hcmd, _⟩ := hu.same
    exact workAgrees_same hs hctxs hcmd hwork
  | host a ts ht => exact hostAccess_workAgrees a (s := { s with turns := ts }) hs
  | keystream q st ts ht =>
    rw [keystreamTurn_frame]
    exact hs
  | entropy q e ts ht =>
    rw [entropyTurn_frame]
    exact hs
  | reset ts ht => exact workAgrees_of_none rfl

/-! ## The parameters -/

/-- No step changes the number of contexts or of alphabet entries (00_scope.md R8; 10_state.md R36). -/
theorem step_lengths {s t : State} (h : step s = .next t) :
    t.ctxs.length = s.ctxs.length ∧ t.alpha.length = s.alpha.length := by
  cases step_cases h with
  | run u t i hu hm hp hd he =>
    obtain ⟨hctxs, _, _, _, _, halpha, _⟩ := hu.same
    obtain ⟨_, _, _, _, _, _, _, _, halpha', _⟩ := exec_sameRegisters he
    exact ⟨by rw [(exec_writesOnly he).length_eq, hctxs], by rw [halpha', halpha]⟩
  | illegal u r hu =>
    obtain ⟨hctxs, _, _, _, _, halpha, _⟩ := hu.same
    exact ⟨congrArg List.length hctxs, congrArg List.length halpha⟩
  | hold u hu =>
    obtain ⟨hctxs, _, _, _, _, halpha, _⟩ := hu.same
    exact ⟨congrArg List.length hctxs, congrArg List.length halpha⟩
  | host a ts ht =>
    obtain ⟨hctxs, _, _, halpha⟩ := hostAccess_frame a { s with turns := ts }
    exact ⟨congrArg List.length hctxs, halpha⟩
  | keystream q st ts ht =>
    rw [keystreamTurn_frame]
    exact ⟨rfl, rfl⟩
  | entropy q e ts ht =>
    rw [entropyTurn_frame]
    exact ⟨rfl, rfl⟩
  | reset ts ht => exact resetState_lengths s.ctxs.length s.alpha.length

/-- Settles O59: coherence, agreement and the parameters, each by its own step lemma. -/
theorem stepKeepsCoherent : Obligations.StepKeepsCoherent := fun _ _ h =>
  ⟨step_coherent h, step_workAgrees h, step_lengths h⟩

/-! ## Every step goes on -/

/-- Every turn of the Engine goes on (60_exceptions.md R180). -/
theorem engineTurn_next (s : State) : ∃ t, engineTurn s = .next t := by
  unfold engineTurn
  split
  · unfold runCommand
    split
    · exact exec_next _ s
    · exact ⟨_, rfl⟩
  · exact ⟨s, rfl⟩

/-- Every step goes on (60_exceptions.md R180). -/
theorem step_next (s : State) : ∃ t, step s = .next t := by
  unfold step nextTurn
  split
  · exact engineTurn_next s
  · rename_i a ts _
    cases a with
    | engine => exact engineTurn_next _
    | _ => exact ⟨_, rfl⟩

/-- A command that has run has ended or waits: its loop's fuel never runs out (70_reset_and_hazards.md R232). -/
theorem exec_phase_ne_exec {i : Instr} {s t : State} (h : exec i s = .next t) : t.phase ≠ .exec := by
  cases exec_cases h with
  | error e => exact Phase.noConfusion
  | request => exact Phase.noConfusion
  | entropyFail c x => exact Phase.noConfusion
  | noop c => exact Phase.noConfusion
  | write x z => exact Phase.noConfusion
  | draw x d hi hx hm =>
    cases d with
    | done v z k => exact Phase.noConfusion
    | waitKs z => exact Phase.noConfusion
    | primFail z => exact Phase.noConfusion
    | more z k => exact absurd rfl (hm z k)

/-- Settles O7: the two lemmas above. -/
theorem everyCommandEndsOrWaits : Obligations.EveryCommandEndsOrWaits :=
  ⟨step_next, fun _ _ _ h => exec_phase_ne_exec h⟩

end Sys2Proof.Machine
end

section
/-! The agents' turns: what a step is when the Engine moves, when a source answers, and when reset is asserted
(10_state.md R34, R38; 20_memory.md R63; 60_exceptions.md R196, R197; 70_reset_and_hazards.md R210, R211). -/

namespace Sys2Proof.Machine

/-! ## The Engine -/

/-- With no turn on the list the Engine moves (log entry 1). -/
theorem step_of_turns_nil {s : State} (h : s.turns = []) : step s = engineTurn s := by
  simp only [step, nextTurn, h]

/-- The Engine's turn, taken off the list. -/
theorem step_of_turns_engine {s : State} {ts : List Turn} (h : s.turns = .engine :: ts) :
    step s = engineTurn { s with turns := ts } := by
  simp only [step, nextTurn, h, agentTurn]

/-- In phase Exec the Engine runs the command the latched word decodes to (20_memory.md R63). -/
theorem engineTurn_of_exec {s : State} {i : Instr} (hp : s.phase = .exec) (hd : decode s.ctxs.length s.cmd = .ok i) :
    engineTurn s = exec i s := by
  rw [engineTurn, if_pos hp, runCommand_of_ok hd]

/-- In every other phase the Engine does nothing (10_state.md R34). -/
theorem engineTurn_of_ne_exec {s : State} (hp : s.phase ≠ .exec) : engineTurn s = .next s := by
  rw [engineTurn, if_neg hp]

/-- The word `withFetchWord` latches (log entry 11). -/
theorem tableWord_of_lt {w : Nat} (h : w < 2 ^ 32) : tableWord 32 w = BitVec.ofNat 32 w := by
  rw [tableWord, Nat.mod_eq_of_lt h]

/-- Settles O5: the Engine's turn, from the list and from an empty list, in Exec and in the other phases, and after a word
has been placed. -/
theorem stepRunsDecoded : Obligations.StepRunsDecoded := by
  refine ⟨fun s i hp hd => ⟨fun ht => ?_, fun ts ht => ?_⟩, fun s hp => ⟨fun ht => ?_, fun ts ht => ?_⟩,
    fun s w i hw hd => ?_⟩
  · rw [step_of_turns_nil ht, engineTurn_of_exec hp hd]
  · rw [step_of_turns_engine ht, engineTurn_of_exec (s := { s with turns := ts }) hp hd]
  · rw [step_of_turns_nil ht, engineTurn_of_ne_exec hp]
  · rw [step_of_turns_engine ht, engineTurn_of_ne_exec (s := { s with turns := ts }) hp]
  · rw [State.withFetchWord, tableWord_of_lt hw, placeCommand, step_of_turns_engine rfl]
    exact engineTurn_of_exec (s := issue (BitVec.ofNat 32 w) s) rfl hd

/-! ## The sources -/

/-- The KeystreamSource's turn (60_exceptions.md R196). -/
theorem step_keystream {s : State} {q : Nat} {st : BitVec 8} {ts : List Turn} (h : s.turns = .keystream q st :: ts) :
    step s = .next (keystreamTurn q st { s with turns := ts }) := by
  simp only [step, nextTurn, h, agentTurn]

/-- The EntropySource's turn (60_exceptions.md R197). -/
theorem step_entropy {s : State} {q : Nat} {e : EntropyAnswer} {ts : List Turn} (h : s.turns = .entropy q e :: ts) :
    step s = .next (entropyTurn q e { s with turns := ts }) := by
  simp only [step, nextTurn, h, agentTurn]

/-- The sequencer waits for a source. -/
abbrev State.Waits (s : State) : Prop := s.phase = .waitEntropy ∨ s.phase = .waitKeystream

/-- A command that waits has taken the next request number, and no other has. -/
theorem exec_reqs {i : Instr} {s t : State} (h : exec i s = .next t) :
    (t.Waits ∧ t.reqs = s.reqs + 1) ∨ (¬ t.Waits ∧ t.reqs = s.reqs) := by
  have hidle : ∀ {p : Phase}, p = .idle → ¬ (p = .waitEntropy ∨ p = .waitKeystream) := by
    rintro p rfl
    simp
  cases exec_cases h with
  | error e => exact .inr ⟨hidle rfl, rfl⟩
  | request => exact .inl ⟨.inl rfl, rfl⟩
  | entropyFail c x => exact .inr ⟨hidle rfl, rfl⟩
  | noop c => exact .inr ⟨hidle rfl, rfl⟩
  | write x z => exact .inr ⟨hidle rfl, rfl⟩
  | draw x d hd hx hm =>
    cases d with
    | done v z k => exact .inr ⟨hidle rfl, rfl⟩
    | waitKs z => exact .inl ⟨.inr rfl, rfl⟩
    | primFail z => exact .inr ⟨hidle rfl, rfl⟩
    | more z k => exact absurd rfl (hm z k)

/-- A host access never makes the sequencer wait. -/
theorem hostAccess_not_waits (a : HostAccess) {s : State} (hs : ¬ s.Waits) : ¬ (hostAccess a s).Waits := by
  generalize ht : hostAccess a s = t
  have hc := host_cases a s
  rw [ht] at hc
  cases hc with
  | reply r => exact hs
  | ovr b => exact hs
  | issue w hi => simp [State.Waits]
  | reg r v hi hr =>
    obtain ⟨_, _, _, _, hphase, _⟩ := writeReg_frame s v r hr
    rw [State.Waits, show ({ writeReg s v r with reply := Reply.done } : State).phase = s.phase from hphase]
    exact hs

/-- The count of requests rises by one where a step goes from Exec into a wait, and nowhere else (log entry 8). -/
theorem step_reqs {s t : State} (h : step s = .next t) :
    t.reqs = s.reqs + if s.phase = .exec ∧ t.Waits then 1 else 0 := by
  have hkeep : ¬ (s.phase = .exec ∧ t.Waits) → t.reqs = s.reqs →
      t.reqs = s.reqs + if s.phase = .exec ∧ t.Waits then 1 else 0 := fun hn hr => by rw [if_neg hn, hr, Nat.add_zero]
  have hexec : s.phase = .exec → ¬ s.Waits := fun hp => by simp [State.Waits, hp]
  cases step_cases h with
  | run u t i hu hm hp hd he =>
    have hreqs : u.reqs = s.reqs := by rcases hu with rfl | ⟨ts, _, rfl⟩ <;> rfl
    rcases exec_reqs he with ⟨hw, hr⟩ | ⟨hw, hr⟩
    · rw [if_pos ⟨hp, hw⟩, hr, hreqs]
    · exact hkeep (fun hn => hw hn.2) (hr.trans hreqs)
  | illegal u r hu =>
    have hreqs : u.reqs = s.reqs := by rcases hu with rfl | ⟨ts, _, rfl⟩ <;> rfl
    exact hkeep (by simp [State.Waits]) hreqs
  | hold u hu hp =>
    have hreqs : t.reqs = s.reqs := by rcases hu with rfl | ⟨ts, _, rfl⟩ <;> rfl
    exact hkeep (fun hn => hp hn.1) hreqs
  | host a ts ht =>
    obtain ⟨_, _, hreqs, _⟩ := hostAccess_frame a { s with turns := ts }
    exact hkeep (fun hn => hostAccess_not_waits a (s := { s with turns := ts }) (hexec hn.1) hn.2) hreqs
  | keystream q st ts ht =>
    refine hkeep (fun hn => ?_) (by rw [keystreamTurn_frame])
    rw [keystreamTurn, if_neg (by simp [hn.1])] at hn
    exact hexec hn.1 hn.2
  | entropy q e ts ht =>
    refine hkeep (fun hn => ?_) (by rw [entropyTurn_frame])
    rw [entropyTurn, if_neg (by simp [hn.1])] at hn
    exact hexec hn.1 hn.2
  | reset ts ht => exact hkeep (by simp [State.Waits, hardReset, resetState]) rfl

/-- Settles O55: the two sources' turns, and the count of requests by `step_reqs`. -/
theorem answersReachTheRequest : Obligations.AnswersReachTheRequest := by
  refine ⟨fun s ts q st e => ⟨fun ht => ?_, fun ht => ?_⟩, fun s t h => ?_⟩
  · rw [step_keystream ht]
    rfl
  · rw [step_entropy ht]
    rfl
  · have hr := step_reqs h
    exact ⟨hr ▸ Nat.le_add_right _ _, hr⟩

/-! ## Reset -/

/-- The reset input's turn (70_reset_and_hazards.md R210). -/
theorem step_reset {s : State} {ts : List Turn} (h : s.turns = .reset :: ts) :
    step s = .next (hardReset { s with turns := ts }) := by
  simp only [step, nextTurn, h, agentTurn]

/-- Every slot at reset is one of `resetCtx`. -/
theorem mem_resetState_ctxs {n m : Nat} {x : Ctx} (h : x ∈ (resetState n m).ctxs) : ∃ i, x = resetCtx i := by
  obtain ⟨i, _, rfl⟩ := List.mem_map.1 (show x ∈ (List.range n).map resetCtx from h)
  exact ⟨i, rfl⟩

/-- The reset values of 10_state.md R38, for every number of contexts and of alphabet entries. -/
theorem resetState_atResetValues (n m : Nat) : (resetState n m).AtResetValues := by
  refine ⟨rfl, rfl, rfl, rfl, rfl, rfl, rfl, rfl, fun k hk => ?_, rfl, rfl, fun v hv => ?_, rfl, fun x hx => ?_⟩
  · interval_cases k <;> rfl
  · exact List.eq_of_mem_replicate hv
  · obtain ⟨i, rfl⟩ := mem_resetState_ctxs hx
    exact ⟨rfl, rfl, rfl, rfl⟩

/-- Settles O56: a reset leaves the state of `resetState`, whose values and lengths the lemmas above give. -/
theorem resetLeaves : Obligations.ResetLeaves := by
  refine ⟨fun s ts ht => ⟨_, step_reset ht, resetState_atResetValues _ _, ?_, ?_⟩, resetState_atResetValues _ _, ?_, ?_⟩
  · exact (resetState_lengths s.ctxs.length s.alpha.length).1
  · exact (resetState_lengths s.ctxs.length s.alpha.length).2
  · exact (resetState_lengths Config.numContexts Config.alphaCapacity).1
  · exact (resetState_lengths Config.numContexts Config.alphaCapacity).2

/-- What every slot at reset has, every context at reset has: there is no working copy. -/
theorem everyCtx_reset {P : Ctx → Prop} (h : ∀ i, P (resetCtx i)) : State.reset.EveryCtx P := by
  refine ⟨fun x hx => ?_, fun x hx => (nomatch hx)⟩
  obtain ⟨i, rfl⟩ := mem_resetState_ctxs hx
  exact h i

/-- The parameters of the machine at reset are in range (log entry 6). -/
theorem paramsInRange_reset : State.reset.ParamsInRange := by
  obtain ⟨hctxs, halpha⟩ := resetState_lengths Config.numContexts Config.alphaCapacity
  unfold State.ParamsInRange State.reset
  rw [hctxs, halpha]
  decide

/-- Settles O60: every slot is at OFF 64 and CTR 0, and nothing is in flight. -/
theorem resetMeetsInvariants : Obligations.ResetMeetsInvariants :=
  ⟨everyCtx_reset fun _ => provenance_of_off rfl, everyCtx_reset fun _ => aligned_of_off rfl,
    everyCtx_reset fun _ _ => ⟨rfl, rfl⟩, fun _ hx => (nomatch hx), workAgrees_of_none rfl,
    coherent_idle _ rfl rfl rfl rfl, Nat.zero_le 8, paramsInRange_reset⟩

end Sys2Proof.Machine
end

section
/-! The register window: its map, what its registers read as, and what a write of each does (20_memory.md R51, R54 to
R64). -/

namespace Sys2Proof.Machine

/-! ## The map -/

/-- Settles O51: `regAt` finds at an aligned offset the register that stands there. -/
theorem registerMap : Obligations.RegisterMap := by
  refine fun cap off r h8 => ⟨regAt_offset h8, ?_⟩
  rintro ⟨rfl, hcap⟩
  exact regAt_of cap r hcap

/-- A register that is no alphabet entry stands in every window. -/
theorem regAt_regOffset (cap : Nat) {r : Reg} (h : ∀ i, r ≠ .alpha i) : regAt cap (regOffset r) = some r :=
  regAt_of cap r fun i hi => absurd hi (h i)

/-- An entry below the capacity stands in the window. -/
theorem regAt_alpha {cap i : Nat} (h : i < cap) : regAt cap (regOffset (.alpha i)) = some (.alpha i) :=
  regAt_of cap _ fun j hj => by cases hj; exact h

/-- A read at an offset where a register stands (20_memory.md R55). -/
theorem hostRead_of_regAt {s : State} {off : Nat} {r : Reg} (h : regAt s.alpha.length off = some r) :
    hostRead s off = readReg s r := by
  simp only [hostRead, h]

/-- A read of a register that is no alphabet entry. -/
theorem hostRead_regOffset (s : State) {r : Reg} (h : ∀ i, r ≠ .alpha i) : hostRead s (regOffset r) = readReg s r :=
  hostRead_of_regAt (regAt_regOffset _ h)

/-! ## Writes -/

/-- While BUSY is 1 a write changes OVR alone (20_memory.md R54). -/
theorem hostWrite_of_busy {s : State} (hp : s.phase ≠ .idle) (off : Nat) (v : Word) :
    hostWrite s off v = { s with ovr := !(decide (off = 8) && v.getLsbD 1) } := by
  have hb : s.busy = true := decide_eq_true hp
  rw [hostWrite, if_pos hb]
  split
  case isTrue h =>
    obtain ⟨rfl, hv⟩ := h
    rw [clearsOvr] at hv
    simp [hv]
  case isFalse h =>
    have hn : (decide (off = 8) && v.getLsbD 1) = false := by
      rw [Bool.eq_false_iff, ne_eq, Bool.and_eq_true, decide_eq_true_eq]
      exact h
    rw [hn, Bool.not_false]

/-- While BUSY is 0 a write reaches the register at its offset (20_memory.md R54). -/
theorem hostWrite_of_regAt {s : State} (hp : s.phase = .idle) {off : Nat} {r : Reg} (v : Word)
    (h : regAt s.alpha.length off = some r) : hostWrite s off v = writeReg s v r := by
  simp [hostWrite, State.busy, hp, h]

/-- While BUSY is 0 a write where no register stands is ignored (20_memory.md R53, R54). -/
theorem hostWrite_of_regAt_none {s : State} (hp : s.phase = .idle) {off : Nat} (v : Word)
    (h : regAt s.alpha.length off = none) : hostWrite s off v = s := by
  simp [hostWrite, State.busy, hp, h]

/-- A write of a register that is no alphabet entry. -/
theorem hostWrite_regOffset {s : State} (hp : s.phase = .idle) {r : Reg} (v : Word) (h : ∀ i, r ≠ .alpha i) :
    hostWrite s (regOffset r) v = writeReg s v r :=
  hostWrite_of_regAt hp v (regAt_regOffset _ h)

/-- The low bits of a value that is written, as a number's. -/
theorem extractLsb'_zero_eq (k : Nat) (v : Word) : v.extractLsb' 0 k = BitVec.ofNat k v.toNat := by
  apply BitVec.eq_of_toNat_eq
  simp [BitVec.extractLsb'_toNat]

/-- A write of CMD (20_memory.md R63; log entry 21). -/
theorem writeReg_cmd (s : State) (v : Word) :
    writeReg s v .cmd = { s with cmd := BitVec.ofNat 32 v.toNat, phase := .exec, work := none, ksAnswer := none,
                                 entropyAnswer := none } := by
  rw [writeReg, extractLsb'_zero_eq, issue]

/-- A write of STATUS clears OVR when bit 1 is set (20_memory.md R57). -/
theorem writeReg_status (s : State) (v : Word) : writeReg s v .status = { s with ovr := s.ovr && !v.getLsbD 1 } := by
  rw [writeReg, clearsOvr]
  cases v.getLsbD 1 <;> simp

/-- A write inside a vector, by its index. -/
theorem setIfInBounds_of_lt {α : Type} {n k : Nat} (l : Vector α n) (a : α) (h : k < n) :
    l.setIfInBounds k a = l.set k a := by
  apply Vector.ext
  simp [Vector.getElem_set, Vector.getElem_setIfInBounds]

/-- A write of SEED0 to SEED4 (20_memory.md R60). -/
theorem writeReg_seed_of_lt (s : State) (v : Word) (k : Fin 6) (h : k.val < 5) :
    writeReg s v (.seed k) = { s with seed := s.seed.set k.val v } := by
  rw [writeReg, writeSeed, if_neg (by omega), setIfInBounds_of_lt _ _ h]

/-- Settles O48: a busy write, then each offset by the register that stands there, then the offsets where none does. -/
theorem hostWriteRule : Obligations.HostWriteRule := by
  intro s off v h8 hlt
  refine ⟨fun hp => hostWrite_of_busy hp off v, fun hp => ⟨?_, ?_, ?_, ?_, ?_, ?_, ?_, ?_, ?_, ?_, ?_⟩⟩
  · rintro rfl
    exact (hostWrite_regOffset (r := .cmd) hp v nofun).trans (writeReg_cmd s v)
  · rintro rfl
    exact (hostWrite_regOffset (r := .status) hp v nofun).trans (writeReg_status s v)
  · rintro rfl
    exact hostWrite_regOffset (r := .opa) hp v nofun
  · rintro rfl
    exact hostWrite_regOffset (r := .opb) hp v nofun
  · rintro rfl
    rw [← extractLsb'_zero_eq]
    exact hostWrite_regOffset (r := .seedLen) hp v nofun
  · rintro rfl
    rw [← extractLsb'_zero_eq]
    exact hostWrite_regOffset (r := .alphaLen) hp v nofun
  · rintro rfl
    rw [← extractLsb'_zero_eq]
    exact hostWrite_regOffset (r := .ctxSel) hp v nofun
  · rintro k hk rfl
    exact (hostWrite_regOffset (r := .seed ⟨k, by omega⟩) hp v nofun).trans (writeReg_seed_of_lt s v _ hk)
  · rintro rfl
    rw [← extractLsb'_zero_eq]
    exact hostWrite_regOffset (r := .seed 5) hp v nofun
  · rintro i hi rfl
    rw [← extractLsb'_zero_eq]
    exact hostWrite_of_regAt hp v (regAt_alpha hi)
  · rintro (rfl | rfl | rfl | hreserved)
    · exact hostWrite_regOffset (r := .result) hp v nofun
    · exact hostWrite_regOffset (r := .ctxInfo) hp v nofun
    · exact hostWrite_regOffset (r := .params) hp v nofun
    · exact hostWrite_of_regAt_none hp v (regAt_reserved hreserved)

/-- An admitted write is answered `done` (20_memory.md R54; log entry 10). -/
theorem hostAccess_write_admitted {off : Nat} (v : Word) (s : State) (h8 : off % 8 = 0) (hlt : off < 0x100000) :
    hostAccess (.write 8 off v) s = { hostWrite s off v with reply := .done } := by
  simp [hostAccess, admitted, h8, hlt]

/-- Settles O46: the Host's turn with an admitted write while BUSY is 1. -/
theorem busyWriteDropped : Obligations.BusyWriteDropped := by
  intro s ts off v hp h8 hlt ht
  rw [step_host ht, hostAccess_write_admitted v _ h8 hlt, hostWrite_of_busy (s := { s with turns := ts }) hp]

/-- Settles O47: the Host's turn with a write of CMD while BUSY is 0. -/
theorem cmdWriteIssues : Obligations.CmdWriteIssues := by
  intro s ts v hp ht
  have hw : hostWrite { s with turns := ts } 0 v = writeReg { s with turns := ts } v .cmd :=
    hostWrite_regOffset (s := { s with turns := ts }) (r := .cmd) hp v nofun
  rw [step_host ht, hostAccess_write_admitted v _ rfl (by decide), hw, writeReg_cmd]

/-! ## What the registers read as -/

/-- Appending bits, as numbers. -/
theorem toNat_append_bits {n m : Nat} (v : BitVec n) (b : BitVec m) : (v ++ b).toNat = v.toNat * 2 ^ m + b.toNat := by
  rw [BitVec.toNat_append, Nat.shiftLeft_eq, Nat.mul_comm, ← Nat.two_pow_add_eq_or_of_lt b.isLt]

/-- STATUS by its fields (20_memory.md R57). -/
theorem statusWord_toNat (s : State) :
    (statusWord s).toNat = (if s.phase = .idle then 0 else 1) + 2 * s.ovr.toNat + 2 ^ 8 * s.err.toNat := by
  have hb : s.busy.toNat = if s.phase = .idle then 0 else 1 := by
    unfold State.busy
    by_cases hp : s.phase = .idle <;> simp [hp]
  refine (toNat_append_bits (n := 63) _ _).trans ?_
  simp only [toNat_append_bits, BitVec.toNat_ofBool, BitVec.toNat_zero, hb]
  omega

/-- CTX_INFO of a context by its fields (20_memory.md R62). -/
theorem ctxInfoOf_toNat (x : Ctx) :
    (ctxInfoOf x).toNat = x.seeded.toNat + 2 * x.failed.toNat + 4 * (if 56 < x.off.val then 1 else 0)
      + 2 ^ 8 * x.off.val + 2 ^ 32 * x.ctr.toNat := by
  have hexh : x.exhausted.toNat = if 56 < x.off.val then 1 else 0 := by
    unfold Ctx.exhausted
    by_cases ho : 56 < x.off.val <;> simp [ho]
  have hoff : (BitVec.ofNat 7 x.off.val).toNat = x.off.val := Nat.mod_eq_of_lt (by omega)
  refine (toNat_append_bits (n := 63) _ _).trans ?_
  simp only [toNat_append_bits, BitVec.toNat_ofBool, BitVec.toNat_zero, hexh, hoff]
  omega

/-- PARAMS by its fields, for parameters in range (20_memory.md R64). -/
theorem paramsWord_toNat {s : State} (h : s.ParamsInRange) :
    (paramsWord s).toNat = s.ctxs.length + 2 ^ 16 * s.alpha.length := by
  obtain ⟨_, hn, _, hm⟩ := h
  have halpha : (BitVec.ofNat 32 s.alpha.length).toNat = s.alpha.length := Nat.mod_eq_of_lt (by omega)
  have hctxs : (BitVec.ofNat 16 s.ctxs.length).toNat = s.ctxs.length := Nat.mod_eq_of_lt (by omega)
  refine (toNat_append_bits (n := 48) _ _).trans ?_
  simp only [toNat_append_bits, BitVec.toNat_zero, halpha, hctxs]
  omega

/-- A register of at most 64 bits reads as its value (20_memory.md R55). -/
theorem toNat_zeroExtend_64 {k : Nat} (v : BitVec k) (hk : k ≤ 64) : (v.zeroExtend 64).toNat = v.toNat :=
  BitVec.toNat_setWidth_of_le hk

/-- An alphabet entry the block holds, zero-extended (20_memory.md R61). -/
theorem alphaEntry_toNat {s : State} {i : Nat} (h : i < s.alpha.length) : (alphaEntry s i).toNat = s.alpha[i].toNat := by
  simp only [alphaEntry, List.getElem?_eq_getElem h, toNat_zeroExtend_64 _ (show 32 ≤ 64 by decide)]

/-- SEED0 to SEED4 (20_memory.md R60). -/
theorem seedReg_of_lt (s : State) {k : Nat} (h : k < 5) : seedReg s k = s.seed[k] := by
  simp [seedReg, h]

/-- SEED5 (20_memory.md R60). -/
theorem seedReg_five (s : State) : seedReg s 5 = s.seed5.zeroExtend 64 := by
  simp [seedReg]

/-- CTX_INFO of the slot CTX_SEL names (20_memory.md R62). -/
theorem ctxInfoWord_of_some {s : State} {x : Ctx} (h : s.ctxs[s.ctxSel.toNat]? = some x) : ctxInfoWord s = ctxInfoOf x := by
  simp only [ctxInfoWord, h]

/-- CTX_INFO when CTX_SEL names no slot (20_memory.md R62). -/
theorem ctxInfoWord_of_none {s : State} (h : s.ctxs[s.ctxSel.toNat]? = none) : ctxInfoWord s = 0#64 := by
  simp only [ctxInfoWord, h]

/-- Settles O50: each offset by the register that stands there, and that register by its value or its fields. -/
theorem viewFields : Obligations.ViewFields := by
  have hread : ∀ (s : State) (r : Reg), (∀ i, r ≠ .alpha i) → hostRead s (regOffset r) = readReg s r :=
    fun s _ hr => hostRead_regOffset s hr
  refine ⟨fun s => ⟨?_, ?_, ?_, ?_, ?_, ?_, ?_, fun k hk => ?_, ?_, fun i hi => ?_⟩, fun s => ?_, fun s x hx => ?_,
    fun s hn => ?_, fun s hs => ?_⟩
  · exact (congrArg BitVec.toNat (hread s .cmd nofun)).trans (toNat_zeroExtend_64 _ (by decide))
  · exact hread s .result nofun
  · exact hread s .opa nofun
  · exact hread s .opb nofun
  · exact (congrArg BitVec.toNat (hread s .seedLen nofun)).trans (toNat_zeroExtend_64 _ (by decide))
  · exact (congrArg BitVec.toNat (hread s .alphaLen nofun)).trans (toNat_zeroExtend_64 _ (by decide))
  · exact (congrArg BitVec.toNat (hread s .ctxSel nofun)).trans (toNat_zeroExtend_64 _ (by decide))
  · exact (hread s (.seed ⟨k, by omega⟩) nofun).trans (seedReg_of_lt s hk)
  · have hseed : hostRead s 0x128 = s.seed5.zeroExtend 64 := (hread s (.seed 5) nofun).trans (seedReg_five s)
    rw [hseed, toNat_zeroExtend_64 _ (by decide)]
  · exact (congrArg BitVec.toNat (hostRead_of_regAt (regAt_alpha hi))).trans (alphaEntry_toNat hi)
  · exact (congrArg BitVec.toNat (hread s .status nofun)).trans (statusWord_toNat s)
  · have hinfo : hostRead s 0x40 = ctxInfoOf x := (hread s .ctxInfo nofun).trans (ctxInfoWord_of_some hx)
    rw [hinfo, ctxInfoOf_toNat]
  · exact (hread s .ctxInfo nofun).trans (ctxInfoWord_of_none (List.getElem?_eq_none hn))
  · exact (congrArg BitVec.toNat (hread s .params nofun)).trans (paramsWord_toNat hs)

end Sys2Proof.Machine
end

section
/-! A read/write register reads back what was written to it, and no write shows in another register (20_memory.md R54,
R56, R59 to R62). -/

namespace Sys2Proof.Machine

/-- The registers the host may write and read back (20_memory.md R51). -/
def Reg.ReadsBack (s : State) (r : Reg) : Prop :=
  r = .cmd ∨ r = .opa ∨ r = .opb ∨ r = .seedLen ∨ r = .alphaLen ∨ r = .ctxSel ∨ (∃ k, r = .seed k) ∨
    ∃ i, i < s.alpha.length ∧ r = .alpha i

/-- How many bits of a written value a register keeps (20_memory.md R54). -/
def Reg.width : Reg → Nat
  | .opa => 64
  | .opb => 64
  | .ctxSel => 8
  | .seed k => if k.val = 5 then 32 else 64
  | _ => 32

/-- The low bits of a value, in a register of that many bits, read back. -/
theorem toNat_zeroExtend_extractLsb' {k : Nat} (v : Word) (hk : k ≤ 64) :
    ((v.extractLsb' 0 k).zeroExtend 64).toNat = v.toNat % 2 ^ k := by
  rw [toNat_zeroExtend_64 _ hk, extractLsb'_zero_eq, BitVec.toNat_ofNat]

/-- A seed register read back. -/
theorem readReg_writeSeed (s : State) (v : Word) (k : Fin 6) :
    (readReg (writeReg s v (.seed k)) (.seed k)).toNat = v.toNat % 2 ^ (Reg.seed k).width := by
  by_cases hk : k.val = 5
  · obtain rfl : k = 5 := Fin.ext hk
    exact (congrArg BitVec.toNat (seedReg_five _)).trans (toNat_zeroExtend_extractLsb' v (by decide))
  · have hlt : k.val < 5 := by omega
    rw [writeReg_seed_of_lt s v k hlt, readReg, seedReg_of_lt _ hlt, Vector.getElem_set_self, Reg.width, if_neg hk,
      Nat.mod_eq_of_lt v.isLt]

/-- What was written reads back, cut to the register's width. -/
theorem readReg_writeReg_same {s : State} {r : Reg} (v : Word) (hr : r.ReadsBack s) :
    (readReg (writeReg s v r) r).toNat = v.toNat % 2 ^ r.width := by
  rcases hr with rfl | rfl | rfl | rfl | rfl | rfl | ⟨k, rfl⟩ | ⟨i, hi, rfl⟩
  · exact toNat_zeroExtend_extractLsb' v (by decide)
  · exact (Nat.mod_eq_of_lt v.isLt).symm
  · exact (Nat.mod_eq_of_lt v.isLt).symm
  · exact toNat_zeroExtend_extractLsb' v (by decide)
  · exact toNat_zeroExtend_extractLsb' v (by decide)
  · exact toNat_zeroExtend_extractLsb' v (by decide)
  · exact readReg_writeSeed s v k
  · have hi' : i < (writeReg s v (.alpha i)).alpha.length := by simpa [writeReg] using hi
    have hget : (writeReg s v (.alpha i)).alpha[i] = v.extractLsb' 0 32 := by simp [writeReg]
    rw [readReg, alphaEntry_toNat hi', hget, extractLsb'_zero_eq, BitVec.toNat_ofNat]
    rfl

/-- A write of one seed register leaves the others. -/
theorem seedReg_writeSeed_ne (s : State) (v : Word) {j k : Fin 6} (h : j ≠ k) :
    seedReg (writeSeed s k v) j.val = seedReg s j.val := by
  have hne : k.val ≠ j.val := fun hjk => h (Fin.ext hjk.symm)
  unfold writeSeed
  split
  case isTrue hk =>
    have hj : j.val < 5 := by omega
    rw [seedReg_of_lt _ hj, seedReg_of_lt _ hj]
  case isFalse hk => simp only [seedReg, Vector.getElem?_setIfInBounds_ne hne]

/-- A write of one alphabet entry leaves the others. -/
theorem alphaEntry_set_ne (s : State) (a : Word32) {i j : Nat} (h : i ≠ j) :
    alphaEntry { s with alpha := s.alpha.set i a } j = alphaEntry s j := by
  simp only [alphaEntry, List.getElem?_set_ne h]

/-- A write shows in no other register, but one of CTX_SEL in CTX_INFO and one of CMD in STATUS. -/
theorem readReg_writeReg_ne {s : State} {r q : Reg} (v : Word) (hr : r.ReadsBack s) (h : q ≠ r)
    (hinfo : q ≠ .ctxInfo ∨ r ≠ .ctxSel) (hstatus : q ≠ .status ∨ r ≠ .cmd) :
    readReg (writeReg s v r) q = readReg s q := by
  rcases hr with rfl | rfl | rfl | rfl | rfl | rfl | ⟨k, rfl⟩ | ⟨i, hi, rfl⟩
  · cases q with
    | cmd => exact absurd rfl h
    | status => simp at hstatus
    | _ => rfl
  · cases q with
    | opa => exact absurd rfl h
    | _ => rfl
  · cases q with
    | opb => exact absurd rfl h
    | _ => rfl
  · cases q with
    | seedLen => exact absurd rfl h
    | _ => rfl
  · cases q with
    | alphaLen => exact absurd rfl h
    | _ => rfl
  · cases q with
    | ctxSel => exact absurd rfl h
    | ctxInfo => simp at hinfo
    | _ => rfl
  · cases q with
    | seed j => exact seedReg_writeSeed_ne s v fun hjk => h (by rw [hjk])
    | _ =>
      simp only [writeReg, writeSeed]
      split <;> rfl
  · cases q with
    | alpha j => exact alphaEntry_set_ne s _ fun hij => h (by rw [hij])
    | params => simp only [readReg, writeReg, paramsWord, List.length_set]
    | _ => rfl

/-- A register that reads back stands in the window. -/
theorem Reg.ReadsBack.regAt {s : State} {r : Reg} (hr : r.ReadsBack s) :
    regAt s.alpha.length (regOffset r) = some r := by
  refine regAt_of _ r fun i hi => ?_
  subst hi
  simpa [Reg.ReadsBack] using hr

/-- A write keeps the alphabet's length, the slots, and the phase but when it starts a command. -/
theorem writeReg_keeps (s : State) (v : Word) (r : Reg) :
    (writeReg s v r).alpha.length = s.alpha.length ∧ (writeReg s v r).ctxs = s.ctxs ∧
      (writeReg s v r).phase = if r = .cmd then .exec else s.phase := by
  by_cases hr : r = .cmd
  · subst hr
    exact ⟨rfl, rfl, rfl⟩
  · obtain ⟨hctxs, _, _, _, hphase, _, _, _, _, _, halpha⟩ := writeReg_frame s v r hr
    rw [if_neg hr]
    exact ⟨halpha, hctxs, hphase⟩

/-- Settles O49: the write reaches its register, which reads back; at every other offset stands another register or none. -/
theorem writeReadsBack : Obligations.WriteReadsBack := by
  intro s r v hp hr
  change Reg.ReadsBack s r at hr
  obtain ⟨halpha, hctxs, hphase⟩ := writeReg_keeps s v r
  dsimp only
  rw [hostWrite_of_regAt hp v hr.regAt]
  refine ⟨?_, fun off h8 hoff hinfo hstatus => ?_, hctxs, hphase⟩
  · rw [hostRead_of_regAt (halpha ▸ hr.regAt)]
    exact readReg_writeReg_same v hr
  · refine hostRead_congr _ _ off halpha fun q hq => ?_
    obtain ⟨rfl, _⟩ := regAt_offset h8 hq
    refine readReg_writeReg_ne v hr (fun hqr => hoff (by rw [hqr])) ?_ ?_
    · exact hinfo.imp_left fun hne hq => hne (by rw [hq]; rfl)
    · exact hstatus.imp_left fun hne hq => hne (by rw [hq]; rfl)

end Sys2Proof.Machine
end

section
/-! Secrets (20_memory.md R62; 60_exceptions.md R193; 10_state.md R37): a state with its secrets set aside. The window reads
such a state as it reads the state itself, and every step but a draw leaves it in the same state, its secrets set aside. -/

namespace Sys2Proof.Machine

/-! ## Setting the secrets of a state aside -/

/-- A state with the secrets of its slots and of its working copy set aside (20_memory.md R62). -/
def State.hide (s : State) : State := { s with ctxs := s.ctxs.map Ctx.hide, work := s.work.map Ctx.hide }

/-- Two states differ at most in their secrets when they are the same without them. -/
theorem sameButSecrets_iff {s t : State} : SameButSecrets s t ↔ s.hide = t.hide := Iff.rfl

/-- Slots whose secrets are set aside, set aside again. -/
theorem map_hide_map_hide (l : List Ctx) : (l.map Ctx.hide).map Ctx.hide = l.map Ctx.hide := by
  rw [List.map_map]
  rfl

/-- A slot of a state whose secrets are set aside. -/
theorem State.hide_ctxs_get (s : State) (c : Nat) : s.hide.ctxs[c]? = s.ctxs[c]?.map Ctx.hide := List.getElem?_map ..

/-- The number of slots. -/
theorem State.hide_ctxs_length (s : State) : s.hide.ctxs.length = s.ctxs.length := List.length_map ..

/-- Setting the secrets of a state aside twice. -/
theorem State.hide_hide (s : State) : s.hide.hide = s.hide := by
  simp only [State.hide, map_hide_map_hide, Option.map_map]
  rfl

/-! ## The window -/

/-- Every register reads as before (20_memory.md R62). -/
theorem readReg_hide (s : State) (r : Reg) : readReg s.hide r = readReg s r := by
  cases r with
  | ctxInfo =>
    simp only [readReg, ctxInfoWord]
    rw [State.hide_ctxs_get, show s.hide.ctxSel = s.ctxSel from rfl]
    cases s.ctxs[s.ctxSel.toNat]? with
    | none => rfl
    | some x => exact ctxInfoOf_hide x
  | params =>
    simp only [readReg, paramsWord, State.hide_ctxs_length]
    rfl
  | _ => rfl

/-- Every offset reads as before. -/
theorem hostRead_hide (s : State) (off : Nat) : hostRead s.hide off = hostRead s off :=
  hostRead_congr s.hide s off rfl fun r _ => readReg_hide s r

/-- Settles O52: both states read as the one state they are without their secrets. -/
theorem secretsUnreadable : Obligations.SecretsUnreadable := by
  intro s t off h
  rw [← hostRead_hide s, ← hostRead_hide t, sameButSecrets_iff.1 h]

/-! ## Commands that draw nothing -/

/-- `u` and `t` are one state without their secrets. -/
def SameHidden (u t : State) : Prop := u.hide = t.hide

/-- A command ends alike, whatever the secrets. -/
theorem complete_hide (code : BitVec 8) (v : Option Word) (s : State) :
    SameHidden (complete code v s.hide) (complete code v s) := by
  simp only [SameHidden, State.hide, complete, map_hide_map_hide, Option.map_none]

/-- Writing a slot with contexts that differ in their secrets. -/
theorem complete_setCtx_hide (code : BitVec 8) (v : Option Word) (s : State) (c : CtxIx) {x' x : Ctx}
    (h : x'.hide = x.hide) : SameHidden (complete code v (s.hide.setCtx c x')) (complete code v (s.setCtx c x)) := by
  simp only [SameHidden, State.hide, complete, State.setCtx, List.map_set, map_hide_map_hide, Option.map_none, h]

/-- A command on a slot, as long as its meaning on the slot's context is alike without the secrets. -/
theorem onContext_hide (c : CtxIx) {s : State} {k' k : Ctx → State} (h : ∀ x, SameHidden (k' x.hide) (k x)) :
    SameHidden (onContext c s.hide k') (onContext c s k) := by
  unfold onContext
  rw [State.hide_ctxs_get]
  cases s.ctxs[c.toNat]? with
  | none => exact complete_hide _ _ s
  | some x => exact h x

/-- CheckDrawable reads no secret (40_engine.md R101). -/
theorem drawableError_hide (x : Ctx) : drawableError x.hide = drawableError x := rfl

/-- A command on a slot that passes CheckDrawable. -/
theorem onDrawable_hide (c : CtxIx) {s : State} {k' k : Ctx → State} (h : ∀ x, SameHidden (k' x.hide) (k x)) :
    SameHidden (onDrawable c s.hide k') (onDrawable c s k) := by
  refine onContext_hide c fun x => ?_
  rw [drawableError_hide]
  cases drawableError x with
  | none => exact h x
  | some e => exact complete_hide _ _ s

/-- A command that draws nothing leaves the same state, whatever the secrets. -/
theorem exec_hide {i : Instr} {s u t : State} (hi : i.draws = false) (hu : exec i s.hide = .next u)
    (ht : exec i s = .next t) : SameHidden u t := by
  cases i with
  | reseedAuto c =>
    cases hu
    cases ht
    refine onContext_hide c fun x => ?_
    rw [show x.hide.failed = x.failed from rfl, show s.hide.entropyAnswer = s.entropyAnswer from rfl]
    split
    · exact complete_hide _ _ s
    split
    · exact State.hide_hide { s with phase := .waitEntropy, reqs := s.reqs + 1 }
    · exact complete_setCtx_hide _ _ s c rfl
    · exact complete_setCtx_hide _ _ s c rfl
  | reseedSeed c =>
    cases hu
    cases ht
    refine onContext_hide c fun x => ?_
    rw [show x.hide.failed = x.failed from rfl, show s.hide.seedLen = s.seedLen from rfl]
    split
    · exact complete_hide _ _ s
    split
    · exact complete_hide _ _ s
    · exact complete_setCtx_hide _ _ s c rfl
  | clone d src =>
    cases hu
    cases ht
    refine onContext_hide d fun xd => onContext_hide src fun xs => ?_
    rw [show xd.hide.failed = xd.failed from rfl, show xs.hide.failed = xs.failed from rfl,
      show xs.hide.seeded = xs.seeded from rfl]
    split
    · exact complete_hide _ _ s
    split
    · exact complete_hide _ _ s
    split
    · exact complete_hide _ _ s
    · exact complete_setCtx_hide _ _ s d rfl
  | jump c =>
    cases hu
    cases ht
    exact onDrawable_hide c fun x => complete_setCtx_hide _ _ s c rfl
  | nextRaw64 c => cases hi
  | boundedInt w c => cases hi
  | rangedInt w c => cases hi
  | unitFloat c => cases hi
  | randomChar c => cases hi

/-! ## Steps -/

/-- A write of a register is alike, whatever the secrets. -/
theorem writeReg_hide (s : State) (v : Word) (r : Reg) : writeReg s.hide v r = (writeReg s v r).hide := by
  cases r with
  | status =>
    simp only [writeReg]
    split <;> rfl
  | seed k =>
    simp only [writeReg, writeSeed]
    split <;> rfl
  | _ => rfl

/-- A write is alike, whatever the secrets. -/
theorem hostWrite_hide (s : State) (off : Nat) (v : Word) : hostWrite s.hide off v = (hostWrite s off v).hide := by
  unfold hostWrite
  rw [show s.hide.busy = s.busy from rfl, show s.hide.alpha = s.alpha from rfl]
  split
  · split <;> rfl
  · cases regAt s.alpha.length off with
    | none => rfl
    | some r => exact writeReg_hide s v r

/-- A host access is alike, whatever the secrets. -/
theorem hostAccess_hide (a : HostAccess) (s : State) : hostAccess a s.hide = (hostAccess a s).hide := by
  cases a with
  | read size off =>
    simp only [hostAccess, hostRead_hide]
    rfl
  | write size off v =>
    simp only [hostAccess, hostWrite_hide]
    split <;> rfl

/-- An answer is taken alike, whatever the secrets. -/
theorem keystreamTurn_hide (q : Nat) (st : BitVec 8) (s : State) :
    keystreamTurn q st s.hide = (keystreamTurn q st s).hide := by
  unfold keystreamTurn
  rw [show s.hide.phase = s.phase from rfl, show s.hide.reqs = s.reqs from rfl]
  split <;> rfl

/-- An answer is taken alike, whatever the secrets. -/
theorem entropyTurn_hide (q : Nat) (e : EntropyAnswer) (s : State) :
    entropyTurn q e s.hide = (entropyTurn q e s).hide := by
  unfold entropyTurn
  rw [show s.hide.phase = s.phase from rfl, show s.hide.reqs = s.reqs from rfl]
  split <;> rfl

/-- Reset puts the same bytes in, whatever the secrets. -/
theorem hardReset_hide (s : State) : hardReset s.hide = hardReset s := by
  simp only [hardReset, State.hide_ctxs_length]
  rfl

/-- The Engine's turn, unless it runs a command that draws. -/
theorem engineTurn_hide {s u t : State} (hn : ¬ (s.phase = .exec ∧ s.RunsDraw)) (hu : engineTurn s.hide = .next u)
    (ht : engineTurn s = .next t) : SameHidden u t := by
  by_cases hp : s.phase = .exec
  · have hphide : s.hide.phase = .exec := hp
    rw [engineTurn, if_pos hp] at ht
    rw [engineTurn, if_pos hphide] at hu
    have hdec : decode s.hide.ctxs.length s.hide.cmd = decode s.ctxs.length s.cmd := by
      rw [State.hide_ctxs_length]
      rfl
    cases hd : decode s.ctxs.length s.cmd with
    | ok i =>
      rw [runCommand_of_ok hd] at ht
      rw [runCommand_of_ok (hdec.trans hd)] at hu
      have hi : i.draws = false := Bool.eq_false_iff.2 fun hi => hn ⟨hp, i, hd, hi⟩
      exact exec_hide hi hu ht
    | illegal r =>
      rw [runCommand_of_illegal hd] at ht
      rw [runCommand_of_illegal (hdec.trans hd)] at hu
      cases hu
      cases ht
      exact complete_hide _ _ s
  · have hphide : s.hide.phase ≠ .exec := hp
    rw [engineTurn_of_ne_exec hp] at ht
    rw [engineTurn_of_ne_exec hphide] at hu
    cases hu
    cases ht
    exact s.hide_hide

/-- A step, unless it is the Engine's run of a command that draws. -/
theorem step_hide {s u t : State}
    (hn : ¬ (s.phase = .exec ∧ s.RunsDraw ∧ (s.turns = [] ∨ s.turns.head? = some .engine)))
    (hu : step s.hide = .next u) (ht : step s = .next t) : SameHidden u t := by
  cases hs : s.turns with
  | nil =>
    have hshide : s.hide.turns = [] := hs
    rw [step_of_turns_nil hs] at ht
    rw [step_of_turns_nil hshide] at hu
    exact engineTurn_hide (fun h => hn ⟨h.1, h.2, .inl hs⟩) hu ht
  | cons a ts =>
    have hshide : s.hide.turns = a :: ts := hs
    cases a with
    | engine =>
      rw [step_of_turns_engine hs] at ht
      rw [step_of_turns_engine hshide] at hu
      exact engineTurn_hide (s := { s with turns := ts }) (fun h => hn ⟨h.1, h.2, .inr (by rw [hs]; rfl)⟩) hu ht
    | host a =>
      rw [step_host hs] at ht
      rw [step_host hshide] at hu
      cases ht
      cases hu
      exact (congrArg State.hide (hostAccess_hide a { s with turns := ts })).trans (State.hide_hide _)
    | keystream q st =>
      rw [step_keystream hs] at ht
      rw [step_keystream hshide] at hu
      cases ht
      cases hu
      exact (congrArg State.hide (keystreamTurn_hide q st { s with turns := ts })).trans (State.hide_hide _)
    | entropy q e =>
      rw [step_entropy hs] at ht
      rw [step_entropy hshide] at hu
      cases ht
      cases hu
      exact (congrArg State.hide (entropyTurn_hide q e { s with turns := ts })).trans (State.hide_hide _)
    | reset =>
      rw [step_reset hs] at ht
      rw [step_reset hshide] at hu
      cases ht
      cases hu
      exact congrArg State.hide (hardReset_hide { s with turns := ts })

/-- Whether a command that draws runs does not depend on the secrets. -/
theorem runsDraw_hide (s : State) : s.hide.RunsDraw ↔ s.RunsDraw := by
  unfold State.RunsDraw
  rw [State.hide_ctxs_length]
  rfl

/-- Settles O53: each of the two steps leaves the state that the step of the one state without secrets leaves. -/
theorem secretsStaySecret : Obligations.SecretsStaySecret := by
  intro s t s' t' h hn hs ht
  rw [sameButSecrets_iff] at h ⊢
  have hnt : ¬ (t.phase = .exec ∧ t.RunsDraw ∧ (t.turns = [] ∨ t.turns.head? = some .engine)) := by
    have hphase : s.phase = t.phase := show s.hide.phase = t.hide.phase by rw [h]
    have hturns : s.turns = t.turns := show s.hide.turns = t.hide.turns by rw [h]
    rwa [← hphase, ← hturns, ← runsDraw_hide, ← h, runsDraw_hide]
  obtain ⟨u, hu⟩ := step_next s.hide
  have hus : u.hide = s'.hide := step_hide hn hu hs
  have hut : u.hide = t'.hide := step_hide hnt (h ▸ hu) ht
  exact hus.symm.trans hut

end Sys2Proof.Machine
end

section
/-! Raw draws in a row and the commands that make them: where the j-th draw reads, when it waits or fails, and what that
makes of the command (40_engine.md R102, R104, R105, R113; 60_exceptions.md R186, R196). -/

namespace Sys2Proof.Machine

/-! ## The j-th draw -/

/-- The draw after the k-th is a raw draw of the context the k-th has left. -/
theorem nthDraw_succ_of_done {k : Nat} {x y : Ctx} {ks ks' : Option (BitVec 8)} {r : Word}
    (h : nthDraw k x ks = .done r y ks') : nthDraw (k + 1) x ks = nextRaw64 y ks' := by
  induction k generalizing x ks with
  | zero =>
    rw [nthDraw] at h
    simp only [nthDraw, h]
  | succ k ih =>
    rw [nthDraw] at h
    rw [nthDraw]
    cases e : nextRaw64 x ks with
    | done r' x' k' =>
      rw [e] at h
      exact ih h
    | waitKs z => rw [e] at h; cases h
    | primFail z => rw [e] at h; cases h
    | more z k' => rw [e] at h; cases h

/-- Contexts whose first draws agree make the same draws. -/
theorem nthDraw_congr {x y : Ctx} {ks ks' : Option (BitVec 8)} (h : nextRaw64 x ks = nextRaw64 y ks') (j : Nat) :
    nthDraw j x ks = nthDraw j y ks' := by
  cases j with
  | zero => exact h
  | succ j => rw [nthDraw, nthDraw, h]

/-- A raw draw of a Ready context, written out (40_engine.md R104). -/
theorem nextRaw64_of_le (x : Ctx) (ks : Option (BitVec 8)) (h : x.off.val ≤ 56) :
    nextRaw64 x ks = .done (le64At x.buf x.off.val) { x with off := ⟨x.off.val + 8, by omega⟩ } ks := by
  rw [nextRaw64_ready x ks h, takeDraw, advance_eq x h]

/-- The j-th draw from a buffer reads 8j bytes further on (40_engine.md R113). -/
theorem nthDraw_of_le (j : Nat) (x : Ctx) (ks : Option (BitVec 8)) (h : x.off.val + 8 * j ≤ 56) :
    nthDraw j x ks
      = .done (le64At x.buf (x.off.val + 8 * j)) { x with off := ⟨x.off.val + 8 * j + 8, by omega⟩ } ks := by
  induction j with
  | zero => exact nextRaw64_of_le x ks h
  | succ j ih =>
    rw [nthDraw_succ_of_done (ih (by omega)), nextRaw64_of_le _ _ h]
    rfl

/-- The draws of an Exhausted context whose Refill succeeds are those of the refilled one (40_engine.md R102). -/
theorem nthDraw_refill (j : Nat) (x : Ctx) (h : 56 < x.off.val) :
    nthDraw j x (some 0#8) = nthDraw j (refillCtx x) none := by
  refine nthDraw_congr ?_ j
  rw [nextRaw64_refill x h, nextRaw64_ready _ _ (by simp)]

/-- Settles O11: the walk through the old buffer, and after a Refill the walk through the new block from its start. -/
theorem drawsWalkTheBuffer : Obligations.DrawsWalkTheBuffer := by
  refine ⟨nthDraw_of_le, fun j x h ho => ?_⟩
  have hoff : (refillCtx x).off.val = 0 := rfl
  rw [nthDraw_refill j x ho, nthDraw_of_le j (refillCtx x) none (by omega)]
  simp only [hoff, Nat.zero_add]

/-! ## NEXT_RAW64 -/

/-- NEXT_RAW64 completes with the next raw draw (40_engine.md R105). -/
theorem exec_nextRaw64_of_done {c : CtxIx} {s : State} {x z : Ctx} {r : Word} {ks : Option (BitVec 8)}
    (hx : s.Drawable c x) (h : nextRaw64 (s.working x) s.ksAnswer = .done r z ks) :
    exec (.nextRaw64 c) s = .next (s.endedResult c z r) :=
  exec_of_accepted_draw (i := .nextRaw64 c) (j := 0) rfl trivial hx (fun _ hk => absurd hk (Nat.not_lt_zero _)) h rfl

/-- Settles O9: the next raw draw of a Ready context. -/
theorem nextRaw64FromBuffer : Obligations.NextRaw64FromBuffer := fun _ s x h hx =>
  exec_nextRaw64_of_done hx (nextRaw64_of_le (s.working x) s.ksAnswer h)

/-- The counter wraps from its largest value (40_engine.md R102). -/
theorem ctr_add_one_eq_zero_iff (c : Word32) : c + 1#32 = 0#32 ↔ c = 0xFFFFFFFF#32 := by
  rw [ctr_wraps, ← BitVec.toNat_inj]
  rfl

/-- Settles O10: the next raw draw of an Exhausted context is the first of the refilled one. -/
theorem nextRaw64AfterRefill : Obligations.NextRaw64AfterRefill := by
  intro c s x hx ho hks
  refine exec_nextRaw64_of_done (ks := none) hx ?_
  rw [hks, nextRaw64_refill _ ho, takeDraw, advance_eq _ (by simp)]
  simp only [refillCtx, ctr_add_one_eq_zero_iff]
  rfl

/-! ## Waiting and failing -/

/-- Settles O12: the draw that finds no answer leaves the command waiting for one. -/
theorem drawHoldsForKeystream : Obligations.DrawHoldsForKeystream := by
  intro i s x z j hi hv hx hdiscarded hwait
  obtain ⟨d, hexec, -, hd, -⟩ := exec_draw i s x j hi hv hx hdiscarded
  rw [hexec, hd z hwait, finishDraw]

/-- A raw draw fails on a status other than 0, which it finds latched, and sets FAILED only (40_engine.md R102). -/
theorem nextRaw64_primFail {x z : Ctx} {ks : Option (BitVec 8)} (h : nextRaw64 x ks = .primFail z) :
    (∃ st, ks = some st ∧ st ≠ 0#8) ∧ z = { x with failed := true } := by
  rcases nextRaw64_cases x ks with ⟨_, e⟩ | ⟨_, _, e⟩ | ⟨_, _, e⟩ | ⟨_, hst, e⟩ <;> rw [e] at h <;> cases h
  exact ⟨hst, rfl⟩

/-- A raw draw leaves the latched answer, or none. -/
theorem nextRaw64_done_answer {x z : Ctx} {ks ks' : Option (BitVec 8)} {r : Word} (h : nextRaw64 x ks = .done r z ks') :
    ks' = ks ∨ ks' = none := by
  rcases nextRaw64_cases x ks with ⟨_, e⟩ | ⟨_, _, e⟩ | ⟨_, _, e⟩ | ⟨_, _, e⟩ <;> rw [e] at h <;> cases h
  · exact .inl rfl
  · exact .inr rfl

/-- The status a later draw fails on is the one latched before the first. -/
theorem nthDraw_primFail_answer {j : Nat} {x z : Ctx} {ks : Option (BitVec 8)} (h : nthDraw j x ks = .primFail z) :
    ∃ st, ks = some st ∧ st ≠ 0#8 := by
  induction j generalizing x ks with
  | zero => exact (nextRaw64_primFail h).1
  | succ j ih =>
    rw [nthDraw] at h
    cases e : nextRaw64 x ks with
    | done r x' ks' =>
      rw [e] at h
      obtain ⟨st, hst, hne⟩ := ih h
      rcases nextRaw64_done_answer e with hk | hk
      · exact ⟨st, hk.symm.trans hst, hne⟩
      · rw [hk] at hst; cases hst
    | primFail y => exact (nextRaw64_primFail e).1
    | waitKs y => rw [e] at h; cases h
    | more y k => rw [e] at h; cases h

/-- Settles O13: the failing draw ends the command with code 4 and sets FAILED in what the draws before it have left. -/
theorem primitiveFailureEnds : Obligations.PrimitiveFailureEnds := by
  intro i s x z j hi hv hx hdiscarded hfail
  obtain ⟨d, hexec, -, -, hd⟩ := exec_draw i s x j hi hv hx hdiscarded
  refine ⟨?_, nthDraw_primFail_answer hfail, ?_, ?_⟩
  · rw [hexec, hd z hfail, finishDraw, raise_eq]
    rfl
  · rintro rfl
    exact (nextRaw64_primFail hfail).2
  · rintro k r y ks rfl hdone
    rw [nthDraw_succ_of_done hdone] at hfail
    exact (nextRaw64_primFail hfail).2

/-! ## UNIT_FLOAT -/

/-- The next draw is served from the context that `readyCtx` names (40_engine.md R104). -/
theorem nextRaw64_of_readyCtx {x z : Ctx} {ks : Option (BitVec 8)} (h : readyCtx x ks = some z) :
    z.off.val ≤ 56 ∧ ∃ ks', nextRaw64 x ks = takeDraw z ks' := by
  unfold readyCtx at h
  split at h
  case isTrue ho =>
    cases h
    exact ⟨ho, ks, nextRaw64_ready _ _ ho⟩
  case isFalse ho =>
    split at h
    case isTrue hks =>
      cases h
      subst hks
      exact ⟨Nat.zero_le 56, none, nextRaw64_refill x (by omega)⟩
    case isFalse => cases h

/-- Settles O31: UNIT_FLOAT discards no draw. -/
theorem unitFloatCompletes : Obligations.UnitFloatCompletes := by
  intro c s x z hx hready
  obtain ⟨ho, ks, hdraw⟩ := nextRaw64_of_readyCtx hready
  rw [takeDraw, advance_eq z ho] at hdraw
  exact ⟨ho, exec_of_accepted_draw (i := .unitFloat c) (j := 0) rfl trivial hx
    (fun _ hk => absurd hk (Nat.not_lt_zero _)) hdraw rfl⟩

/-! ## RANGED_INT and RANDOM_CHAR -/

/-- Settles O29: `exec_of_accepted_draw` for RANGED_INT, whose outcome is the policy's for max - min, and min added. -/
theorem rangedIntCompletes : Obligations.RangedIntCompletes := by
  intro w c s x z j v r ks hle hfit hx hdiscarded hdraw haccepted
  have hout : ∀ r, outcomeOf s r (.rangedInt w c)
      = (acceptDraw w (s.opb.toNat - s.opa.toNat) (r.toNat % 2 ^ bitsOf w)).map
          fun v => BitVec.ofNat 64 (v + s.opa.toNat) := fun _ => rfl
  refine exec_of_accepted_draw (i := .rangedInt w c) rfl ⟨hle, hfit⟩ hx (fun k hk => ?_) hdraw ?_
  · obtain ⟨r', y, ks', hdraw', hrejected⟩ := hdiscarded k hk
    exact ⟨r', y, ks', hdraw', by rw [hout, hrejected, Option.map_none]⟩
  · rw [hout, haccepted, Option.map_some]

end Sys2Proof.Machine
end

section
/-! Sampling (41_sampler.md R140 to R160): the policy as one formula, the rejection limit, the number of draws behind each
output, the range of every result, and the binary64 encoding. -/

namespace Sys2Proof.Machine

/-! ## The rejection limit -/

/-- The largest multiple of n not above 2^w is `n * (2^w div n)` (41_sampler.md R144). -/
theorem le_rejectLimit_of_dvd {w : Width} {n q : Nat} (hn : 0 < n) (hd : n ∣ q) (hq : q ≤ 2 ^ bitsOf w) :
    q ≤ rejectLimit w n := by
  obtain ⟨k, rfl⟩ := hd
  have hk : k ≤ 2 ^ bitsOf w / n := (Nat.le_div_iff_mul_le hn).2 (by rwa [Nat.mul_comm])
  rw [rejectLimit_eq, Nat.mul_comm]
  exact Nat.mul_le_mul_right n hk

/-- A number that is no power of two does not divide one. -/
theorem two_pow_mod_pos {n b : Nat} (hn : ¬ ∃ k, n = 2 ^ k) : 1 ≤ 2 ^ b % n := by
  by_contra h
  obtain ⟨k, _, hk⟩ := (Nat.dvd_prime_pow Nat.prime_two).1 (Nat.dvd_of_mod_eq_zero (show 2 ^ b % n = 0 by omega))
  exact hn ⟨k, hk⟩

/-- Settles O33: the limit by `rejectLimit_eq`, and the datapath's form of the test, where `-n mod n` is `2^w mod n`. -/
theorem rejectLimitLargest : Obligations.RejectLimitLargest := by
  intro w n h3 hle hpow
  have hlimit : rejectLimit w n = n * (2 ^ bitsOf w / n) := by rw [rejectLimit_eq, Nat.mul_comm]
  refine ⟨hlimit, ⟨_, hlimit⟩, fun q hd hq => le_rejectLimit_of_dvd (by omega) hd hq, fun v hv => ?_, two_pow_mod_pos hpow⟩
  have hneg : (2 ^ bitsOf w - n) % 2 ^ bitsOf w % n = 2 ^ bitsOf w % n := by
    rw [Nat.mod_eq_of_lt (show 2 ^ bitsOf w - n < 2 ^ bitsOf w by omega), ← Nat.mod_eq_sub_mod (by omega)]
  have hrem : 2 ^ bitsOf w % n < n := Nat.mod_lt _ (by omega)
  rw [hneg, rejectLimit]
  omega

/-! ## The policy -/

/-- The three cases of the policy are one: a w-bit draw below the largest multiple of m + 1 is taken modulo m + 1
(41_sampler.md R141). -/
theorem acceptDraw_eq {w : Width} {m v : Nat} (hm : m < 2 ^ bitsOf w) (hv : v < 2 ^ bitsOf w) :
    acceptDraw w m v = if v < 2 ^ bitsOf w / (m + 1) * (m + 1) then some (v % (m + 1)) else none := by
  unfold acceptDraw
  split
  case isTrue hmax =>
    have hn : m + 1 = 2 ^ bitsOf w := by omega
    rw [hn, Nat.div_self (Nat.two_pow_pos _), Nat.one_mul, if_pos hv, Nat.mod_eq_of_lt hv]
  case isFalse =>
    split
    case isTrue hpow =>
      obtain ⟨k, hk, hn⟩ := hpow
      have hm' : m = 2 ^ k - 1 := by omega
      rw [hn, Nat.div_mul_cancel (Nat.pow_dvd_pow 2 hk.le), if_pos hv, hm', Nat.and_two_pow_sub_one_eq_mod]
    case isFalse => rfl

/-- What the policy returns is at most the bound. -/
theorem acceptDraw_le {w : Width} {m v r : Nat} (hm : m < 2 ^ bitsOf w) (hv : v < 2 ^ bitsOf w)
    (h : acceptDraw w m v = some r) : r ≤ m := by
  rw [acceptDraw_eq hm hv] at h
  split at h <;> cases h
  exact Nat.lt_succ_iff.1 (Nat.mod_lt v (Nat.succ_pos m))

/-- The numbers below `q * n` that leave the remainder `r`. -/
theorem card_mod_eq (q n r : Nat) (hn : 0 < n) :
    ((Finset.range (q * n)).filter fun v => v % n = r).card = if r < n then q else 0 := by
  split
  case isTrue hr =>
    have hcount := Nat.count_modEq_card (q * n) hn r
    rw [Nat.count_eq_card_filter_range, Nat.mul_mod_left, Nat.mul_div_cancel q hn, if_neg (Nat.not_lt_zero _),
      Nat.add_zero] at hcount
    simpa only [Nat.ModEq, Nat.mod_eq_of_lt hr] using hcount
  case isFalse hr =>
    rw [Finset.card_eq_zero, Finset.filter_eq_empty_iff]
    rintro v - rfl
    exact hr (Nat.mod_lt v hn)

/-- Settles O34: the draws mapped to r are those below the limit that leave the remainder r. -/
theorem uniformPreimages : Obligations.UniformPreimages := by
  intro w m r hm
  have hlimit : 2 ^ bitsOf w / (m + 1) * (m + 1) ≤ 2 ^ bitsOf w := Nat.div_mul_le_self _ _
  have hset : ((Finset.range (2 ^ bitsOf w)).filter fun v => acceptDraw w m v = some r)
      = (Finset.range (2 ^ bitsOf w / (m + 1) * (m + 1))).filter fun v => v % (m + 1) = r := by
    ext v
    simp only [Finset.mem_filter, Finset.mem_range]
    constructor
    · rintro ⟨hv, ha⟩
      rw [acceptDraw_eq hm hv] at ha
      split at ha
      case isTrue hlt => exact ⟨hlt, Option.some.inj ha⟩
      case isFalse => cases ha
    · rintro ⟨hlt, hr⟩
      have hv : v < 2 ^ bitsOf w := by omega
      exact ⟨hv, by rw [acceptDraw_eq hm hv, if_pos hlt, hr]⟩
  rw [hset, card_mod_eq _ _ _ (Nat.succ_pos m)]
  simp only [Nat.lt_succ_iff]

/-- Settles O30: the index the policy accepts is below ALPHA_LEN. -/
theorem randomCharCompletes : Obligations.RandomCharCompletes := by
  intro c s x z j v r ks hpos hcap hx hdiscarded hdraw haccepted
  have hout : ∀ r, outcomeOf s r (.randomChar c)
      = (acceptDraw .w32 (s.alphaLen.toNat - 1) (r.toNat % 2 ^ 32)).map (alphaEntry s) := fun _ => rfl
  have hlen := s.alphaLen.isLt
  have hle : v ≤ s.alphaLen.toNat - 1 :=
    acceptDraw_le (w := .w32) (by rw [bitsOf]; omega) (Nat.mod_lt _ (Nat.two_pow_pos 32)) haccepted
  have hv : v < s.alpha.length := by omega
  refine ⟨hv, ?_⟩
  rw [← alphaEntry_toNat hv, BitVec.ofNat_toNat, BitVec.setWidth_eq]
  refine exec_of_accepted_draw (i := .randomChar c) rfl ⟨hpos, hcap⟩ hx (fun k hk => ?_) hdraw ?_
  · obtain ⟨r', y, ks', hdraw', hrejected⟩ := hdiscarded k hk
    exact ⟨r', y, ks', hdraw', by rw [hout, hrejected, Option.map_none]⟩
  · rw [hout, haccepted, Option.map_some]

/-! ## The range of results -/

/-- The value of a mapped draw is the image of the draw's value. -/
theorem mapDraw_eq_done {α β : Type} {f : α → β} {d : Draw α} {b : β} {z : Ctx} {k : Option (BitVec 8)}
    (h : mapDraw f d = .done b z k) : ∃ a, d = .done a z k ∧ b = f a := by
  cases d <;> cases h
  exact ⟨_, rfl, rfl⟩

/-- A w-bit draw is below 2^w (41_sampler.md R140). -/
theorem drawBits_lt {w : Width} {x z : Ctx} {ks k : Option (BitVec 8)} {v : Nat} (h : drawBits w x ks = .done v z k) :
    v < 2 ^ bitsOf w := by
  obtain ⟨r, _, rfl⟩ := mapDraw_eq_done h
  exact lowBits_lt w r

/-- The rejection loop returns a remainder modulo n. -/
theorem rejectLoop_lt {w : Width} {n f : Nat} {x z : Ctx} {ks k : Option (BitVec 8)} {v : Nat} (hn : 0 < n)
    (h : rejectLoop w n f x ks = .done v z k) : v < n := by
  induction f generalizing x ks with
  | zero => cases h
  | succ f ih =>
    rw [rejectLoop] at h
    cases e : drawBits w x ks with
    | done u y k' =>
      rw [e] at h
      dsimp only at h
      split at h
      · cases h
        exact Nat.mod_lt u hn
      · exact ih h
    | waitKs y => rw [e] at h; cases h
    | primFail y => rw [e] at h; cases h
    | more y k' => rw [e] at h; cases h

/-- `Bounded` returns a value of at most m (41_sampler.md R141). -/
theorem bounded_le {w : Width} {m v : Nat} {x z : Ctx} {ks k : Option (BitVec 8)} (h : bounded w m x ks = .done v z k) :
    v ≤ m := by
  unfold bounded at h
  split at h
  case isTrue hm =>
    have := drawBits_lt h
    omega
  case isFalse =>
    split at h
    case isTrue =>
      obtain ⟨u, _, rfl⟩ := mapDraw_eq_done h
      exact Nat.and_le_right
    case isFalse => exact Nat.lt_succ_iff.1 (rejectLoop_lt (Nat.succ_pos m) h)

/-- If a command has completed in `t` with code 0, its RESULT has `P`. -/
def OkResult (P : Word → Prop) (t : State) : Prop := t.phase = .idle → t.err = 0#8 → P t.result

/-- An error's code is not 0. -/
theorem okResult_raise {P : Word → Prop} (e : Err) (s : State) : OkResult P (raise e s) := by
  intro _ he
  have hcode : e.code = 0#8 := he
  have hrange := e.code_range.1
  rw [hcode] at hrange
  exact absurd hrange (by decide)

/-- Draws that return a value give it to RESULT. -/
theorem okResult_finishDraw {P : Word → Prop} {c : CtxIx} {d : Draw Word} {s : State}
    (h : ∀ v z k, d = .done v z k → P v) : OkResult P (finishDraw c d s) := by
  cases d with
  | done v z k => exact fun _ _ => h v z k rfl
  | waitKs z => exact fun hp => nomatch hp
  | primFail z => exact okResult_raise .primitiveFailure (s.setCtx c z)
  | more z k => exact fun hp => nomatch hp

/-- Checks of the slot come before the draws (40_engine.md R101). -/
theorem okResult_onDrawable {P : Word → Prop} {c : CtxIx} {s : State} {k : Ctx → State} (h : ∀ x, OkResult P (k x)) :
    OkResult P (onDrawable c s k) := by
  unfold onDrawable onContext
  split
  · exact okResult_raise _ s
  · dsimp only
    split
    · exact okResult_raise _ s
    · exact h _

/-- The value of a sampler command is the image of one that `Bounded` returns. -/
theorem okResult_bounded {P : Word → Prop} {c : CtxIx} {s : State} {w : Width} {m : Nat} {f : Nat → Word} {x : Ctx}
    (h : ∀ v, v ≤ m → P (f v)) : OkResult P (finishDraw c (mapDraw f (bounded w m x s.ksAnswer)) s) := by
  refine okResult_finishDraw fun v z k hd => ?_
  obtain ⟨a, ha, rfl⟩ := mapDraw_eq_done hd
  exact h a (bounded_le ha)

/-- BOUNDED_INT gives at most OPA (41_sampler.md R141). -/
theorem boundedInt_le {w : Width} {c : CtxIx} {s t : State} (h : exec (.boundedInt w c) s = .next t) :
    OkResult (fun v => v.toNat ≤ s.opa.toNat) t := by
  cases h
  split
  case isTrue hf =>
    refine okResult_onDrawable fun x => okResult_bounded fun v hv => ?_
    rw [lowBits_of_lt ((fits_iff w s.opa).1 hf)] at hv
    exact (BitVec.toNat_ofNat v 64).trans_le ((Nat.mod_le _ _).trans hv)
  case isFalse => exact okResult_raise _ s

/-- RANGED_INT gives a value between OPA and OPB (41_sampler.md R150). -/
theorem rangedInt_mem {w : Width} {c : CtxIx} {s t : State} (h : exec (.rangedInt w c) s = .next t) :
    OkResult (fun v => s.opa.toNat ≤ v.toNat ∧ v.toNat ≤ s.opb.toNat) t := by
  cases h
  split
  case isTrue hf =>
    rw [Bool.and_eq_true, fits_iff, fits_iff] at hf
    obtain ⟨hfa, hfb⟩ := hf
    rw [lowBits_of_lt hfa, lowBits_of_lt hfb]
    refine okResult_onDrawable fun x => ?_
    split
    case isTrue => exact okResult_raise _ s
    case isFalse hle =>
      refine okResult_bounded fun v hv => ?_
      have hopb := s.opb.isLt
      rw [rangedResult, Nat.mod_eq_of_lt (by omega), BitVec.toNat_ofNat, Nat.mod_eq_of_lt (by omega)]
      omega
  case isFalse => exact okResult_raise _ s

/-- RANDOM_CHAR gives one of the first ALPHA_LEN entries (41_sampler.md R160). -/
theorem randomChar_mem {c : CtxIx} {s t : State} (h : exec (.randomChar c) s = .next t) :
    OkResult (fun v => ∃ (i : Nat) (h : i < s.alpha.length), i < s.alphaLen.toNat ∧ v.toNat = s.alpha[i].toNat) t := by
  cases h
  split
  case isTrue => exact okResult_raise _ s
  case isFalse hcap =>
    refine okResult_onDrawable fun x => ?_
    split
    case isTrue => exact okResult_raise _ s
    case isFalse hne =>
      refine okResult_bounded fun v hv => ?_
      have hlt : v < s.alpha.length := by omega
      exact ⟨v, hlt, by omega, alphaEntry_toNat hlt⟩

/-- Settles O35: the three lemmas above. -/
theorem samplerInRange : Obligations.SamplerInRange :=
  ⟨fun _ _ _ _ h => boundedInt_le h, fun _ _ _ _ h => rangedInt_mem h, fun _ _ _ h => randomChar_mem h⟩

/-! ## F64 -/

/-- F64 of a positive number below 2^53: its exponent over its fraction (41_sampler.md R155). -/
theorem f64_toNat {k : Nat} (h0 : 0 < k) (h : k < 2 ^ 53) :
    (f64 k).toNat = 2 ^ 52 * (970 + k.log2) + (k - 2 ^ k.log2) * 2 ^ (52 - k.log2) ∧
      (k - 2 ^ k.log2) * 2 ^ (52 - k.log2) < 2 ^ 52 ∧ k.log2 ≤ 52 := by
  have hlog : k.log2 < 53 := (Nat.log2_lt (by omega)).2 h
  have hlow : 2 ^ k.log2 ≤ k := Nat.log2_self_le (by omega)
  have hhigh : k < 2 ^ (k.log2 + 1) := Nat.lt_log2_self
  have hsplit : 2 ^ k.log2 * 2 ^ (52 - k.log2) = 2 ^ 52 := by rw [← Nat.pow_add]; congr 1; omega
  have hfrac : (k - 2 ^ k.log2) * 2 ^ (52 - k.log2) < 2 ^ 52 := by
    rw [← hsplit]
    exact Nat.mul_lt_mul_of_pos_right (by rw [Nat.pow_succ] at hhigh; omega) (Nat.two_pow_pos _)
  refine ⟨?_, hfrac, by omega⟩
  rw [f64, if_neg (by omega), BitVec.toNat_ofNat, Nat.shiftLeft_eq, Nat.shiftLeft_eq, Nat.mul_comm (970 + k.log2),
    ← Nat.two_pow_add_eq_or_of_lt hfrac, Nat.mod_eq_of_lt (by omega)]

/-- F64 as a binary64 value: the significand with its hidden bit, at the exponent, is k * 2^-53 (41_sampler.md R155;
log entry 15). -/
theorem f64_value {k : Nat} (h0 : 0 < k) (h : k < 2 ^ 53) :
    970 ≤ (f64 k).toNat / 2 ^ 52 ∧ (f64 k).toNat / 2 ^ 52 ≤ 1022 ∧
      (2 ^ 52 + (f64 k).toNat % 2 ^ 52) * 2 ^ ((f64 k).toNat / 2 ^ 52 - 970) = k * 2 ^ 52 := by
  obtain ⟨hword, hfrac, hlog⟩ := f64_toNat h0 h
  have hlow : 2 ^ k.log2 ≤ k := Nat.log2_self_le (by omega)
  have hexp : (f64 k).toNat / 2 ^ 52 = 970 + k.log2 := by omega
  have hmod : (f64 k).toNat % 2 ^ 52 = (k - 2 ^ k.log2) * 2 ^ (52 - k.log2) := by omega
  have hsplit : 2 ^ (52 - k.log2) * 2 ^ k.log2 = 2 ^ 52 := by rw [← Nat.pow_add]; congr 1; omega
  refine ⟨by omega, by omega, ?_⟩
  rw [hexp, hmod, Nat.add_sub_cancel_left, Nat.add_mul, Nat.mul_assoc, hsplit, Nat.mul_comm (2 ^ 52), ← Nat.add_mul,
    Nat.add_sub_cancel' hlow]

/-- F64 tells the numbers below 2^53 apart (41_sampler.md R157). -/
theorem f64_inj {k l : Nat} (hk : k < 2 ^ 53) (hl : l < 2 ^ 53) (h : f64 k = f64 l) : k = l := by
  have hzero : ∀ n, 0 < n → n < 2 ^ 53 → f64 0 ≠ f64 n := by
    intro n h0 hn he
    have hexp := (f64_value h0 hn).1
    rw [← he] at hexp
    exact absurd hexp (by decide)
  rcases Nat.eq_zero_or_pos k with rfl | hk0
  · rcases Nat.eq_zero_or_pos l with rfl | hl0
    · rfl
    · exact absurd h (hzero l hl0 hl)
  · rcases Nat.eq_zero_or_pos l with rfl | hl0
    · exact absurd h.symm (hzero k hk0 hk)
    · obtain ⟨_, _, hvk⟩ := f64_value hk0 hk
      obtain ⟨_, _, hvl⟩ := f64_value hl0 hl
      rw [h, hvl] at hvk
      omega

/-- Settles O32: F64 of 0, the value by `f64_value`, and `f64_inj` on the top 53 bits of two draws. -/
theorem f64Value : Obligations.F64Value := by
  refine ⟨rfl, fun k h0 h => f64_value h0 h, fun r r' => ⟨fun h => ?_, fun h => by rw [h]⟩⟩
  have hr := r.isLt
  have hr' := r'.isLt
  exact f64_inj (by omega) (by omega) h

end Sys2Proof.Machine
end

section
/-! RESEED_AUTO, RESEED_SEED, CLONE, JUMP and the errors of their operands and of the samplers' (40_engine.md R106 to R109;
60_exceptions.md R182, R187). -/

namespace Sys2Proof.Machine

/-! ## Reseeds -/

/-- RESEED_AUTO on a slot that has not failed goes by the EntropySource's answer (40_engine.md R106). -/
theorem exec_reseedAuto {c : CtxIx} {s : State} {x : Ctx} (hx : s.ctxs[c.toNat]? = some x) (hf : x.failed = false) :
    (s.entropyAnswer = none → exec (.reseedAuto c) s = .next { s with phase := .waitEntropy, reqs := s.reqs + 1 }) ∧
    (s.entropyAnswer = some .fail →
      exec (.reseedAuto c) s = .next ((s.setCtx c { x with failed := true }).endedWith 7#8)) ∧
    ∀ e, s.entropyAnswer = some (.bytes e) → exec (.reseedAuto c) s = .next (s.endedWriting c (seedCtx x e)) := by
  refine ⟨fun ha => ?_, fun ha => ?_, fun e ha => ?_⟩
  all_goals rw [exec, execReseedAuto, onContext_of hx, hf, if_neg Bool.false_ne_true, ha]
  · rw [raise_eq]
    rfl
  · rw [← complete_none]

/-- Settles O14: without an answer. -/
theorem reseedAutoWaits : Obligations.ReseedAutoWaits := fun _ _ _ hx hf ha => (exec_reseedAuto hx hf).1 ha

/-- Settles O16: with the answer `fail`. -/
theorem entropyFailureEnds : Obligations.EntropyFailureEnds := fun _ _ _ hx hf ha => (exec_reseedAuto hx hf).2.1 ha

/-- Settles O15: with 44 bytes, cut into key and nonce (20_memory.md R65). -/
theorem reseedAutoSeeds : Obligations.ReseedAutoSeeds := by
  intro c s x e hx hf ha
  refine ⟨keyOfSeed e, nonceOfSeed e, fun i hi => ?_, fun i hi => ?_, (exec_reseedAuto hx hf).2.2 e ha⟩
  · simp [keyOfSeed]
  · simp [nonceOfSeed]

/-- RESEED_SEED on a slot that has not failed goes by SEED_LEN (40_engine.md R107). -/
theorem exec_reseedSeed {c : CtxIx} {s : State} {x : Ctx} (hx : s.ctxs[c.toNat]? = some x) (hf : x.failed = false) :
    exec (.reseedSeed c) s
      = .next (if s.seedLen.toNat < 44 then s.endedWith 1#8 else s.endedWriting c (seedCtx x (seedOperand s))) := by
  rw [exec, execReseedSeed, onContext_of hx, hf, if_neg Bool.false_ne_true, raise_eq, complete_none]
  rfl

/-- A byte of the seed registers (20_memory.md R60). -/
theorem seedByte_toNat (s : State) (j : Nat) :
    (seedByte s j).toNat = (seedReg s (j / 8)).toNat / 2 ^ (8 * (j % 8)) % 256 := regByte_toNat _ _

/-- Settles O17: byte j of the seed is byte j mod 8 of SEED<j div 8>; the nonce is bytes 32 to 43, of SEED4 and SEED5. -/
theorem reseedSeedSeeds : Obligations.ReseedSeedSeeds := by
  intro c s x hx hf hlen
  refine ⟨keyOfSeed (seedOperand s), nonceOfSeed (seedOperand s), fun j hj => ?_, fun j hj => ?_, fun j hj => ?_, ?_⟩
  · have hbyte : (keyOfSeed (seedOperand s))[j] = seedByte s j := by simp [keyOfSeed, seedOperand]
    rw [hbyte, seedByte_toNat, seedReg_of_lt]
  · have hbyte : (nonceOfSeed (seedOperand s))[j] = seedByte s (32 + j) := by simp [nonceOfSeed, seedOperand]
    have hreg : (32 + j) / 8 = 4 := by omega
    have hpos : (32 + j) % 8 = j := by omega
    rw [hbyte, seedByte_toNat, hreg, hpos, seedReg_of_lt s (by decide)]
  · have hbyte : (nonceOfSeed (seedOperand s))[8 + j] = seedByte s (40 + j) := by
      simp [nonceOfSeed, seedOperand, ← Nat.add_assoc]
    have hreg : (40 + j) / 8 = 5 := by omega
    have hpos : (40 + j) % 8 = j := by omega
    rw [hbyte, seedByte_toNat, hreg, hpos, seedReg_five, toNat_zeroExtend_64 _ (by decide)]
  · rw [exec_reseedSeed hx hf, if_neg (by omega)]
    rfl

/-! ## Operand validation -/

/-- Settles O18: each operand is validated after the slot and before any draw (60_exceptions.md R184). -/
theorem operandValidation : Obligations.OperandValidation := by
  refine ⟨fun c s x hx hf hlen => ?_, fun w c s x hfa hfb hx hlt => ?_, fun c s x hx hlen => ?_⟩
  · rw [exec_reseedSeed hx hf, if_pos hlen]
  · have hfit : (fits w s.opa && fits w s.opb) = true := by
      rw [Bool.and_eq_true, fits_iff, fits_iff]
      exact ⟨hfa, hfb⟩
    rw [exec, execRangedInt, if_pos hfit, onDrawable_of hx, lowBits_of_lt hfa, lowBits_of_lt hfb, if_pos hlt, raise_eq]
    rfl
  · have hzero : s.alphaLen.toNat = 0 := by rw [hlen]; rfl
    rw [exec, execRandomChar, if_neg (by omega), onDrawable_of hx, if_pos hzero, raise_eq]
    rfl

/-! ## CLONE, JUMP -/

/-- Writing a slot with what it holds changes nothing. -/
theorem endedWriting_self {s : State} {c : CtxIx} {x : Ctx} (hx : s.ctxs[c.toNat]? = some x) :
    s.endedWriting c x = complete 0#8 none s := by
  obtain ⟨hlt, hget⟩ := List.getElem?_eq_some_iff.1 hx
  rw [← complete_none, State.setCtx, ← hget, List.set_getElem_self]

/-- CLONE of a seeded slot, neither having failed, writes the source's context into the destination (40_engine.md R108). -/
theorem exec_clone {d src : CtxIx} {s : State} {xd xs : Ctx} (hd : s.ctxs[d.toNat]? = some xd)
    (hs : s.ctxs[src.toNat]? = some xs) (hfd : xd.failed = false) (hfs : xs.failed = false) (hseeded : xs.seeded = true) :
    exec (.clone d src) s = .next (s.endedWriting d xs) := by
  have hsame : { xs with seeded := true, failed := false } = xs := by rw [← hseeded, ← hfs]
  rw [exec, execClone, onContext_of hd, onContext_of hs, hfd, hfs, hseeded, hsame, complete_none]
  by_cases he : d = src
  · subst he
    rw [endedWriting_self hs]
    simp
  · simp [he]

/-- Settles O19: `exec_clone`; where the destination is the source the write changes nothing. -/
theorem cloneCopies : Obligations.CloneCopies := by
  intro d src s xd xs hd hs hfd hfs hseeded
  refine ⟨_, exec_clone hd hs hfd hfs hseeded, rfl, ?_, ?_⟩
  · by_cases he : d = src
    · subst he
      rw [endedWriting_self hs]
      exact hs
    · rw [State.endedWriting_ctxs, List.getElem?_set_ne fun h => he (BitVec.eq_of_toNat_eq h)]
      exact hs
  · rintro rfl
    rw [endedWriting_self hs]
    rfl

/-- JUMP on a slot that passes CheckDrawable (40_engine.md R109). -/
theorem exec_jump {c : CtxIx} {s : State} {x : Ctx} (hx : s.Drawable c x) :
    exec (.jump c) s = .next (s.endedWriting c (jumpCtx x)) := by
  rw [exec, execJump, onDrawable_of hx, complete_none]

/-- Settles O20: `exec_jump`, the nonce by `be96_nonceInc`. -/
theorem jumpAdvances : Obligations.JumpAdvances := fun _ _ x hx =>
  ⟨nonceInc x.nonce, be96_nonceInc x.nonce, exec_jump hx⟩

/-! ## FORK: CLONE, then JUMP -/

/-- A slot holds a context that has not failed: CLONE may write it. -/
def State.Clonable (s : State) (c : CtxIx) : Prop := ∃ y, s.ctxs[c.toNat]? = some y ∧ y.failed = false

/-- The slot that was written. -/
theorem endedWriting_get_self {s : State} {c : CtxIx} {y : Ctx} (x : Ctx) (hy : s.ctxs[c.toNat]? = some y) :
    (s.endedWriting c x).ctxs[c.toNat]? = some x := List.getElem?_set_self (List.getElem?_eq_some_iff.1 hy).1

/-- The other slots. -/
theorem endedWriting_get_ne (s : State) {c d : CtxIx} (x : Ctx) (h : d ≠ c) :
    (s.endedWriting c x).ctxs[d.toNat]? = s.ctxs[d.toNat]? :=
  List.getElem?_set_ne fun he => h (BitVec.eq_of_toNat_eq he.symm)

/-- A fork of `m` into another slot leaves there the jumped context of `m`, and every other slot as it was
(30_encoding.md R92). -/
theorem fork_slots {m c : CtxIx} {s t u : State} {xm : Ctx} (hm : s.Drawable m xm) (hc : s.Clonable c)
    (ht : exec (.clone c m) s = .next t) (hu : exec (.jump c) t = .next u) :
    u.ctxs[c.toNat]? = some (jumpCtx xm) ∧ ∀ d, d ≠ c → u.ctxs[d.toNat]? = s.ctxs[d.toNat]? := by
  obtain ⟨hxm, hf, hseeded⟩ := hm
  obtain ⟨y, hy, hfy⟩ := hc
  rw [exec_clone hy hxm hfy hf hseeded] at ht
  cases ht
  have hcloned : (s.endedWriting c xm).ctxs[c.toNat]? = some xm := endedWriting_get_self xm hy
  rw [exec_jump ⟨hcloned, hf, hseeded⟩] at hu
  cases hu
  refine ⟨endedWriting_get_self _ hcloned, fun d hd => ?_⟩
  rw [endedWriting_get_ne _ _ hd, endedWriting_get_ne _ _ hd]

/-- Settles O26: both forks leave the jumped context of the master, which neither changes. -/
theorem forkTwiceSameSubstream : Obligations.ForkTwiceSameSubstream := by
  intro m c1 c2 s s1 s2 s3 s4 x1 x2 xm h1m h2m h12 hm hc1 hc2 e1 e2 e3 e4 hx1 hx2
  obtain ⟨hfirst, hothers⟩ := fork_slots hm hc1 e1 e2
  have hm2 : s2.Drawable m xm := ⟨(hothers m h1m.symm).trans hm.1, hm.2⟩
  have hc2' : s2.Clonable c2 := by
    rw [State.Clonable, hothers c2 h12.symm]
    exact hc2
  obtain ⟨hsecond, hothers'⟩ := fork_slots hm2 hc2' e3 e4
  obtain rfl : jumpCtx xm = x1 := Option.some.inj (((hothers' c1 h12).trans hfirst).symm.trans hx1)
  obtain rfl : jumpCtx xm = x2 := Option.some.inj (hsecond.symm.trans hx2)
  exact ⟨rfl, rfl, rfl, rfl, (hothers' m h2m.symm).trans hm2.1, be96_nonceInc xm.nonce⟩

end Sys2Proof.Machine
end

section
/-! The stream (40_engine.md R110 to R114; 70_reset_and_hazards.md R228): the 128-bit position, how many Refills a run of
draws performs, and that draws, and commands that draw, depend on the stream's position alone. -/

namespace Sys2Proof.Machine

/-! ## The position -/

/-- NonceInc changes every nonce. -/
theorem nonceInc_ne (n : Nonce) : nonceInc n ≠ n := by
  intro h
  have hval := be96_nonceInc n
  have hlt := (be96 n).isLt
  rw [h] at hval
  omega

/-- A Refill adds one to the position (40_engine.md R114). -/
theorem position_refillCtx (x : Ctx) : position (refillCtx x) = (position x + 1) % 2 ^ 128 := by
  have hn := (be96 x.nonce).isLt
  have hc := x.ctr.isLt
  have hctr : (x.ctr + 1#32).toNat = (x.ctr.toNat + 1) % 2 ^ 32 := BitVec.toNat_add ..
  simp only [position, refillCtx_ctr, refillCtx_nonce, hctr]
  split
  case isTrue hwrap =>
    rw [ctr_wraps] at hwrap
    rw [be96_nonceInc]
    omega
  case isFalse hwrap =>
    rw [ctr_wraps] at hwrap
    omega

/-- Settles O22: the position by `position_refillCtx`; the nonce changes exactly where the counter wraps. -/
theorem positionLaw : Obligations.PositionLaw := by
  intro x
  refine ⟨rfl, position_refillCtx x, ?_, fun h => ?_, ?_⟩
  · rw [refillCtx_nonce, ← ctr_wraps]
    split
    case isTrue h => exact iff_of_true (nonceInc_ne _) h
    case isFalse h => exact iff_of_false (fun hne => hne rfl) h
  · have hwrap := (ctr_wraps x.ctr).2 h
    rw [refillCtx_nonce, if_pos hwrap, refillCtx_ctr]
    exact ⟨rfl, hwrap⟩
  · rw [position, jumpCtx_nonce, jumpCtx_ctr, be96_nonceInc, BitVec.toNat_zero, Nat.add_zero]

/-! ## Draws in a row -/

/-- The context the next raw draw reads when every Refill succeeds (40_engine.md R104). -/
def served (x : Ctx) : Ctx := if 56 < x.off.val then refillCtx x else x

/-- An Exhausted context refills. -/
theorem served_of_lt {x : Ctx} (h : 56 < x.off.val) : served x = refillCtx x := if_pos h

/-- A Ready context is served as it is. -/
theorem served_of_le {x : Ctx} (h : x.off.val ≤ 56) : served x = x := if_neg (Nat.not_lt_of_le h)

/-- It is Ready. -/
theorem served_off_le (x : Ctx) : (served x).off.val ≤ 56 := by
  unfold served
  split
  · exact Nat.zero_le 56
  · omega

/-- One draw of several: it is served, and the others go on from there. -/
theorem drawMany_succ (k : Nat) (x : Ctx) :
    drawMany (k + 1) x
      = (le64At (served x).buf (served x).off.val :: (drawMany k (advance (served x))).1,
          (drawMany k (advance (served x))).2.1,
          (drawMany k (advance (served x))).2.2 + if 56 < x.off.val then 1 else 0) := by
  by_cases ho : 56 < x.off.val
  · simp only [drawMany, nextRaw64_refill x ho, takeDraw, served_of_lt ho, if_pos ho, if_true]
  · rw [Nat.not_lt] at ho
    simp only [drawMany, nextRaw64_ready x _ ho, takeDraw, served_of_le ho, if_neg (Nat.not_lt_of_le ho), reduceCtorEq,
      if_false]

/-- Every draw gives a value. -/
theorem drawMany_length (k : Nat) (x : Ctx) : (drawMany k x).1.length = k := by
  induction k generalizing x with
  | zero => rfl
  | succ k ih => rw [drawMany_succ, List.length_cons, ih]

/-- Draws after draws go on from the context those have left. -/
theorem drawMany_add (m k : Nat) (x : Ctx) :
    (drawMany (m + k) x).1 = (drawMany m x).1 ++ (drawMany k (drawMany m x).2.1).1 := by
  induction m generalizing x with
  | zero => rw [Nat.zero_add]; rfl
  | succ m ih =>
    rw [Nat.add_right_comm, drawMany_succ, drawMany_succ m, ih]
    rfl

/-- How many Refills `k` draws perform from offset `o` (40_engine.md R113). -/
def refillsFrom (o k : Nat) : Nat := if k ≤ (64 - o) / 8 then 0 else (k - (64 - o) / 8 + 7) / 8

/-- Where `k` draws leave OFF from offset `o` (40_engine.md R113). -/
def offAfter (o k : Nat) : Nat :=
  if k ≤ (64 - o) / 8 then o + 8 * k else 8 * ((k - (64 - o) / 8 - 1) % 8 + 1)

/-- A draw from the buffer is one of those the offset allows. -/
theorem refillsFrom_ready {o : Nat} (k : Nat) (h8 : o % 8 = 0) (h : o ≤ 56) :
    refillsFrom o (k + 1) = refillsFrom (o + 8) k ∧ offAfter o (k + 1) = offAfter (o + 8) k := by
  unfold refillsFrom offAfter
  constructor <;> split <;> split <;> omega

/-- From offset 64 the first draw refills, and leaves seven more. -/
theorem refillsFrom_exhausted (k : Nat) :
    refillsFrom 64 (k + 1) = refillsFrom 8 k + 1 ∧ offAfter 64 (k + 1) = offAfter 8 k := by
  unfold refillsFrom offAfter
  constructor <;> split <;> split <;> omega

/-- The number of Refills, the offset and the position after `k` draws (40_engine.md R113, R114). -/
theorem drawMany_refills (k : Nat) (x : Ctx) (h8 : x.off.val % 8 = 0) :
    (drawMany k x).2.2 = refillsFrom x.off.val k ∧ (drawMany k x).2.1.off.val = offAfter x.off.val k ∧
      position (drawMany k x).2.1 = (position x + refillsFrom x.off.val k) % 2 ^ 128 := by
  induction k generalizing x with
  | zero =>
    have hpos : position x < 2 ^ 128 := by
      have hn := (be96 x.nonce).isLt
      have hc := x.ctr.isLt
      unfold position
      omega
    refine ⟨by simp [refillsFrom, drawMany], by simp [offAfter, drawMany], ?_⟩
    rw [refillsFrom, if_pos (Nat.zero_le _), Nat.add_zero, Nat.mod_eq_of_lt hpos]
    rfl
  | succ k ih =>
    have hadv : (advance (served x)).off.val = (served x).off.val + 8 := advance_off_val _ (served_off_le x)
    obtain ⟨hcount, hoff, hpos⟩ := ih (advance (served x)) (by
      rw [hadv]
      unfold served
      split
      · rw [refillCtx_off]
        rfl
      · omega)
    rw [drawMany_succ]
    dsimp only
    rw [hcount, hoff, hpos, hadv]
    by_cases ho : 56 < x.off.val
    · have h64 : x.off.val = 64 := by omega
      obtain ⟨hr, ho'⟩ := refillsFrom_exhausted k
      have hposr : position (advance (refillCtx x)) = (position x + 1) % 2 ^ 128 := position_refillCtx x
      have hoffr : (refillCtx x).off.val + 8 = 8 := rfl
      rw [served_of_lt ho, hoffr, if_pos ho, h64, hr, ho', hposr]
      exact ⟨rfl, rfl, by omega⟩
    · rw [Nat.not_lt] at ho
      obtain ⟨hr, ho'⟩ := refillsFrom_ready k h8 ho
      rw [served_of_le ho, if_neg (Nat.not_lt_of_le ho), hr, ho']
      exact ⟨rfl, rfl, rfl⟩

/-- Settles O23: `drawMany_length` and `drawMany_refills`. -/
theorem refillCount : Obligations.RefillCount := by
  intro x k h8 _
  obtain ⟨hcount, hoff, hpos⟩ := drawMany_refills k x h8
  exact ⟨drawMany_length k x, hcount, hoff, hpos⟩

/-! ## One position, the same draws -/

/-- A Refill reads KEY, NONCE and CTR only. -/
theorem sameStream_refillCtx {x y : Ctx} (hkey : x.key = y.key) (hnonce : x.nonce = y.nonce) (hctr : x.ctr = y.ctr) :
    SameStream (refillCtx x) (refillCtx y) := by
  simp only [SameStream, refillCtx, hkey, hnonce, hctr, and_self]

/-- A draw moves both cursors alike. -/
theorem SameStream.advance {x y : Ctx} (h : SameStream x y) : SameStream (advance x) (advance y) := by
  obtain ⟨hkey, hnonce, hctr, hbuf, hoff⟩ := h
  exact ⟨hkey, hnonce, hctr, hbuf, by rw [advance_off, advance_off, hoff]⟩

/-- The next draws of contexts at one position are served from contexts at one position. -/
theorem SameStream.served {x y : Ctx} (h : SameStream x y) : SameStream (served x) (served y) := by
  obtain ⟨hkey, hnonce, hctr, _, hoff⟩ := id h
  unfold Machine.served
  rw [hoff]
  split
  · exact sameStream_refillCtx hkey hnonce hctr
  · exact h

/-- Contexts whose next draws are served at one position make the same draws. -/
theorem drawMany_values_of_served {x y : Ctx} (h : SameStream (served x) (served y)) (k : Nat) :
    (drawMany k x).1 = (drawMany k y).1 := by
  induction k generalizing x y with
  | zero => rfl
  | succ k ih =>
    obtain ⟨_, _, _, hbuf, hoff⟩ := id h
    rw [drawMany_succ, drawMany_succ k y]
    dsimp only
    rw [hbuf, hoff, ih h.advance.served]

/-- Draws keep two contexts at one position. -/
theorem SameStream.drawMany {x y : Ctx} (h : SameStream x y) (k : Nat) :
    SameStream (drawMany k x).2.1 (drawMany k y).2.1 := by
  induction k generalizing x y with
  | zero => exact h
  | succ k ih =>
    rw [drawMany_succ, drawMany_succ k y]
    exact ih h.served.advance

/-- Settles O24: each draw is served at one position for both. -/
theorem sameStreamSameDraws : Obligations.SameStreamSameDraws := fun _ _ k h =>
  ⟨drawMany_values_of_served h.served k, h.drawMany k⟩

/-- Draws that need no Refill move the cursor only. -/
theorem drawMany_ctx_of_le (k : Nat) (x : Ctx) (h : x.off.val + 8 * k ≤ 64) :
    (drawMany k x).2.1 = { x with off := ⟨x.off.val + 8 * k, by omega⟩ } := by
  induction k generalizing x with
  | zero => rfl
  | succ k ih =>
    have ho : x.off.val ≤ 56 := by omega
    have hadv : (advance x).off.val = x.off.val + 8 := advance_off_val x ho
    rw [drawMany_succ, served_of_le ho]
    dsimp only
    rw [ih (advance x) (by omega)]
    simp only [advance, Ctx.mk.injEq, Fin.mk.injEq, true_and, and_true]
    rw [advance_off] at hadv
    omega

/-- Settles O27: the first eight draws use up the block of the last counter value, and leave the position of the jumped
context; the buffers differ, but the next draw of both refills. -/
theorem jumpIsContinuation : Obligations.JumpIsContinuation := by
  intro x k hctr ho
  have hwrap : x.ctr + 1#32 = 0#32 := (ctr_add_one_eq_zero_iff _).2 hctr
  have hoff : (advance (refillCtx x)).off.val = 8 := rfl
  have hctx : (drawMany 8 x).2.1 = { refillCtx x with off := 64 } := by
    rw [drawMany_succ, served_of_lt ho]
    dsimp only
    rw [drawMany_ctx_of_le 7 _ (by omega)]
    rfl
  rw [drawMany_add, List.drop_left' (drawMany_length 8 x), hctx]
  apply drawMany_values_of_served
  have hjump : 56 < (jumpCtx x).off.val := by
    rw [jumpCtx_off]
    decide
  rw [served_of_lt (show 56 < (64 : Fin 65).val by decide), served_of_lt hjump]
  refine sameStream_refillCtx rfl ?_ ?_
  · rw [refillCtx_nonce, if_pos hwrap, jumpCtx_nonce]
  · rw [refillCtx_ctr, hwrap, jumpCtx_ctr]

end Sys2Proof.Machine
end

section
/-! One command on two contexts at one position of one stream (40_engine.md R111, R112): both runs go the same way, draw by
draw, and end the same way. -/

namespace Sys2Proof.Machine

/-- Two runs of draws got equally far, with the same value and the same answer left, at one position. -/
inductive SameDraw {α : Type} : Draw α → Draw α → Prop
  | done (a : α) (k : Option (BitVec 8)) {x y : Ctx} (h : SameStream x y) : SameDraw (.done a x k) (.done a y k)
  | waitKs {x y : Ctx} (h : SameStream x y) : SameDraw (.waitKs x) (.waitKs y)
  | primFail {x y : Ctx} (h : SameStream x y) : SameDraw (.primFail x) (.primFail y)
  | more (k : Option (BitVec 8)) {x y : Ctx} (h : SameStream x y) : SameDraw (.more x k) (.more y k)

theorem SameDraw.map {α β : Type} (f : α → β) {d e : Draw α} (h : SameDraw d e) :
    SameDraw (mapDraw f d) (mapDraw f e) := by
  cases h with
  | done a k h => exact .done (f a) k h
  | waitKs h => exact .waitKs h
  | primFail h => exact .primFail h
  | more k h => exact .more k h

/-- Taking the draw at the cursor. -/
theorem sameDraw_takeDraw {x y : Ctx} (h : SameStream x y) (ks : Option (BitVec 8)) :
    SameDraw (takeDraw x ks) (takeDraw y ks) := by
  obtain ⟨_, _, _, hbuf, hoff⟩ := id h
  rw [takeDraw, takeDraw, hbuf, hoff]
  exact .done _ ks h.advance

/-- A raw draw depends on the position and the answer alone (40_engine.md R111). -/
theorem sameDraw_nextRaw64 {x y : Ctx} (h : SameStream x y) (ks : Option (BitVec 8)) :
    SameDraw (nextRaw64 x ks) (nextRaw64 y ks) := by
  obtain ⟨hkey, hnonce, hctr, _, hoff⟩ := id h
  unfold nextRaw64
  rw [hoff]
  split
  case isTrue =>
    cases ks with
    | none => exact .waitKs h
    | some st =>
      simp only [refillAndDraw]
      split
      · exact sameDraw_takeDraw (sameStream_refillCtx hkey hnonce hctr) none
      · exact .primFail h
  case isFalse => exact sameDraw_takeDraw h ks

/-- So does the rejection loop. -/
theorem sameDraw_rejectLoop (w : Width) (n f : Nat) {x y : Ctx} (h : SameStream x y) (ks : Option (BitVec 8)) :
    SameDraw (rejectLoop w n f x ks) (rejectLoop w n f y ks) := by
  induction f generalizing x y ks with
  | zero => exact .more ks h
  | succ f ih =>
    have hd : SameDraw (drawBits w x ks) (drawBits w y ks) := (sameDraw_nextRaw64 h ks).map (lowBits w)
    rw [rejectLoop, rejectLoop]
    generalize drawBits w x ks = d at hd
    generalize drawBits w y ks = e at hd
    cases hd with
    | done v k h' =>
      dsimp only
      split
      · exact .done _ k h'
      · exact ih h' k
    | waitKs h' => exact .waitKs h'
    | primFail h' => exact .primFail h'
    | more k h' => exact .more k h'

/-- So does `Bounded`. -/
theorem sameDraw_bounded (w : Width) (m : Nat) {x y : Ctx} (h : SameStream x y) (ks : Option (BitVec 8)) :
    SameDraw (bounded w m x ks) (bounded w m y ks) := by
  have hd : SameDraw (drawBits w x ks) (drawBits w y ks) := (sameDraw_nextRaw64 h ks).map (lowBits w)
  unfold bounded
  split
  · exact hd
  split
  · exact hd.map _
  · exact sameDraw_rejectLoop w _ _ h ks

/-- What a command on slot `c` in `t` and one on slot `d` in `u` have in common when they have run alike: RESULT, code and
phase, and the position of their slots and of their working copies. -/
def SameOutcome (c d : CtxIx) (t u : State) : Prop :=
  t.result = u.result ∧ t.err = u.err ∧ t.phase = u.phase ∧
    (∀ x y, t.ctxs[c.toNat]? = some x → u.ctxs[d.toNat]? = some y → SameStream x y) ∧
    (∀ x y, t.work = some x → u.work = some y → SameStream x y)

section
variable {c d : CtxIx} {s s' : State} {x y : Ctx}

/-- An error that both commands raise before any draw. -/
theorem sameOutcome_raise (hx : s.ctxs[c.toNat]? = some x) (hy : s'.ctxs[d.toNat]? = some y) (h : SameStream x y)
    (hres : s.result = s'.result) (e : Err) : SameOutcome c d (raise e s) (raise e s') := by
  rw [raise_eq, raise_eq]
  refine ⟨hres, rfl, rfl, fun x' y' hx' hy' => ?_, fun _ _ hw => (nomatch hw)⟩
  obtain rfl : x' = x := Option.some.inj (hx'.symm.trans hx)
  obtain rfl : y' = y := Option.some.inj (hy'.symm.trans hy)
  exact h

/-- Both slots written, with contexts at one position. -/
theorem sameStream_set (hx : s.ctxs[c.toNat]? = some x) (hy : s'.ctxs[d.toNat]? = some y) {z w : Ctx}
    (h : SameStream z w) (x' y' : Ctx) (hx' : (s.ctxs.set c.toNat z)[c.toNat]? = some x')
    (hy' : (s'.ctxs.set d.toNat w)[d.toNat]? = some y') : SameStream x' y' := by
  obtain rfl := getElem?_set_of_some hx hx'
  obtain rfl := getElem?_set_of_some hy hy'
  exact h

/-- Both commands go on as their draws say. -/
theorem sameOutcome_finishDraw (hx : s.ctxs[c.toNat]? = some x) (hy : s'.ctxs[d.toNat]? = some y) (h : SameStream x y)
    (hres : s.result = s'.result) (herr : s.err = s'.err) {e e' : Draw Word} (hd : SameDraw e e') :
    SameOutcome c d (finishDraw c e s) (finishDraw d e' s') := by
  have hslots : ∀ x' y', s.ctxs[c.toNat]? = some x' → s'.ctxs[d.toNat]? = some y' → SameStream x' y' := by
    intro x' y' hx' hy'
    obtain rfl : x' = x := Option.some.inj (hx'.symm.trans hx)
    obtain rfl : y' = y := Option.some.inj (hy'.symm.trans hy)
    exact h
  have hwork : ∀ {z w : Ctx}, SameStream z w → ∀ x' y', some z = some x' → some w = some y' → SameStream x' y' := by
    rintro z w hzw _ _ ⟨⟩ ⟨⟩
    exact hzw
  cases hd with
  | done v k hzw => exact ⟨rfl, rfl, rfl, sameStream_set hx hy hzw, fun _ _ hw => (nomatch hw)⟩
  | waitKs hzw => exact ⟨hres, herr, rfl, hslots, hwork hzw⟩
  | primFail hzw => exact ⟨hres, rfl, rfl, sameStream_set hx hy hzw, fun _ _ hw => (nomatch hw)⟩
  | more k hzw => exact ⟨hres, herr, rfl, hslots, hwork hzw⟩

end

/-- Settles O25: on drawable slots each command raises the same error in both states or goes on as its draws say. -/
theorem sameStreamSameCommand : Obligations.SameStreamSameCommand := by
  intro i c d s s' t u x y hi hin hx hy hxy hw ht hu
  obtain ⟨hopa, hopb, hlen, halpha, hks, hres, herr⟩ := hin
  have hraise := sameOutcome_raise hx.1 hy.1 hxy hres
  have hfinish := @sameOutcome_finishDraw c d s s' x y hx.1 hy.1 hxy hres herr
  suffices h : SameOutcome c d t u from h
  cases i with
  | nextRaw64 =>
    rw [retarget, exec, execNextRaw64, onDrawable_of hx] at ht
    rw [retarget, exec, execNextRaw64, onDrawable_of hy, ← hks] at hu
    cases ht
    cases hu
    exact hfinish (sameDraw_nextRaw64 hw s.ksAnswer)
  | unitFloat =>
    rw [retarget, exec, execUnitFloat, onDrawable_of hx] at ht
    rw [retarget, exec, execUnitFloat, onDrawable_of hy, ← hks] at hu
    cases ht
    cases hu
    exact hfinish ((sameDraw_nextRaw64 hw s.ksAnswer).map unitFloatOf)
  | boundedInt w =>
    rw [retarget, exec, execBoundedInt, onDrawable_of hx] at ht
    rw [retarget, exec, execBoundedInt, onDrawable_of hy, ← hks, ← hopa] at hu
    cases ht
    cases hu
    split
    · exact hfinish ((sameDraw_bounded w _ hw s.ksAnswer).map _)
    · exact hraise _
  | rangedInt w =>
    rw [retarget, exec, execRangedInt, onDrawable_of hx] at ht
    rw [retarget, exec, execRangedInt, onDrawable_of hy, ← hks, ← hopa, ← hopb] at hu
    cases ht
    cases hu
    split
    · split
      · exact hraise _
      · exact hfinish ((sameDraw_bounded w _ hw s.ksAnswer).map _)
    · exact hraise _
  | randomChar =>
    have hentry : alphaEntry s' = alphaEntry s := by
      funext k
      rw [alphaEntry, alphaEntry, halpha]
    rw [retarget, exec, execRandomChar, onDrawable_of hx] at ht
    rw [retarget, exec, execRandomChar, onDrawable_of hy, ← hks, ← hlen, ← halpha, hentry] at hu
    cases ht
    cases hu
    split
    · exact hraise _
    · split
      · exact hraise _
      · exact hfinish ((sameDraw_bounded .w32 _ hw s.ksAnswer).map _)
  | reseedAuto => cases hi
  | reseedSeed => cases hi
  | clone => cases hi
  | jump => cases hi

end Sys2Proof.Machine
end
